-- ==== Sys2Proof/Word.lean ====
section
/-! DEFINITION. The widths of the spec: command words, length registers, byte cells and symbol cells. -/

namespace Sys2Proof

/-- A 32-bit word: a command word, STATUS, and the 32-bit registers (10_state.md R14; 30_encoding.md R55). -/
abbrev Word := BitVec 32

/-- A 64-bit length or count register (10_state.md R14, R18). -/
abbrev Length := BitVec 64

/-- A byte cell, or one channel value (10_state.md R24 to R26, R28). -/
abbrev Byte := BitVec 8

/-- A symbol, a value in 0 to 3 (10_state.md R27). -/
abbrev Symbol := BitVec 2

end Sys2Proof
end

