-- ==== Sys2Proof/Syntax.lean ====
section
/-! DEFINITION. The commands of the PHC command set, version 1 (30_encoding.md R56), one constructor per row of the
opcode table. -/

namespace Sys2Proof

/-- A command. MODE of ENC is the only operand a command word carries; every other operand is implicit
(30_encoding.md R57, R58). -/
inductive Instr where
  /-- `SymbolCodec.serialize`, 41_symbolcodec.md R69. -/
  | ser
  /-- `SymbolCodec.deserialize`, 41_symbolcodec.md R70. -/
  | des
  /-- `FrameCodec.buildLSBFrame`, 42_framecodec.md R74. -/
  | bldl
  /-- `FrameCodec.buildAppendFrame`, 42_framecodec.md R76. -/
  | blda
  /-- `FrameCodec.parseAppendTrailer`, 42_framecodec.md R78. -/
  | parse
  /-- `FrameCodec.validateLSBHeader`, 42_framecodec.md R80. -/
  | valid
  /-- `LSBChannel.write`, 43_lsbchannel.md R84. -/
  | lsbw
  /-- `LSBChannel.readFirst`, 43_lsbchannel.md R86. -/
  | lsbr
  /-- The two-phase extraction, 43_lsbchannel.md R88. -/
  | lsbx
  /-- `AppendChannel.encode`, 44_appendchannel.md R90. -/
  | appe
  /-- `AppendChannel.decode`, 44_appendchannel.md R91. -/
  | appd
  /-- `encode`, 45_toplevel.md R93, with MODE "the unsigned value of bits 9:8" (30_encoding.md R57). -/
  | enc (mode : Nat)
  /-- `decode`, 45_toplevel.md R96. -/
  | dec
  deriving DecidableEq, Repr

end Sys2Proof
end

