-- ==== Sys2Proof/WellFormed.lean ====
section
/-! DEFINITION. The one check a command must pass to have a word: MODE is a two-bit field (30_encoding.md R55, R57). -/

namespace Sys2Proof

/-- MODE fits bits 9:8; no other command has an operand in its word (30_encoding.md R55, R57, R58). -/
def Instr.wellFormed : Instr → Bool
  | .enc mode => decide (mode < 4)
  | .ser | .des | .bldl | .blda | .parse | .valid | .lsbw | .lsbr | .lsbx | .appe | .appd | .dec => true

end Sys2Proof
end

