-- ==== Sys2Proof/Decode.lean ====
section
/-! DEFINITION. The decoder of 30_encoding.md R64, total on 32-bit words, its rejections by name (R59), and the encoder
written from R55 and R56. -/

namespace Sys2Proof

/-- Why a word is illegal (30_encoding.md R59). -/
inductive DecodeError where
  /-- RSV, bits 31:10, is not 0. -/
  | reservedNotZero
  /-- MODE, bits 9:8, is not 0 and OP is not 0x0C. -/
  | modeNotZero
  /-- OP is 0x00 or 0x0E to 0xFF. -/
  | unknownOp
  deriving DecidableEq, Repr

/-- OP, bits 7:0 (30_encoding.md R55). -/
def opField (w : Word) : BitVec 8 := w.extractLsb' 0 8

/-- MODE, bits 9:8 (30_encoding.md R55). -/
def modeField (w : Word) : BitVec 2 := w.extractLsb' 8 2

/-- RSV, bits 31:10 (30_encoding.md R55). -/
def rsvField (w : Word) : BitVec 22 := w.extractLsb' 10 22

/-- The commands with MODE 0 by OP value (30_encoding.md R56, every row but ENC). -/
def plainCommand (op : Nat) : Option Instr :=
  match op with
  | 0x01 => some .ser
  | 0x02 => some .des
  | 0x03 => some .bldl
  | 0x04 => some .blda
  | 0x05 => some .parse
  | 0x06 => some .valid
  | 0x07 => some .lsbw
  | 0x08 => some .lsbr
  | 0x09 => some .lsbx
  | 0x0A => some .appe
  | 0x0B => some .appd
  | 0x0D => some .dec
  | _ => none

/-- `decode` of 30_encoding.md R64, its tests in that order. -/
def decode (w : Word) : Except DecodeError Instr :=
  if rsvField w ≠ 0 then .error .reservedNotZero
  else if opField w = 0x0C then .ok (.enc (modeField w).toNat)
  else if modeField w ≠ 0 then .error .modeNotZero
  else
    match plainCommand (opField w).toNat with
    | some i => .ok i
    | none => .error .unknownOp

/-- OP of a command (30_encoding.md R56). -/
def Instr.op : Instr → BitVec 8
  | .ser => 0x01
  | .des => 0x02
  | .bldl => 0x03
  | .blda => 0x04
  | .parse => 0x05
  | .valid => 0x06
  | .lsbw => 0x07
  | .lsbr => 0x08
  | .lsbx => 0x09
  | .appe => 0x0A
  | .appd => 0x0B
  | .enc _ => 0x0C
  | .dec => 0x0D

/-- MODE of a command: ENC's operand, 0 for every other command (30_encoding.md R55, R57). -/
def Instr.modeBits : Instr → BitVec 2
  | .enc mode => BitVec.ofNat 2 mode
  | .ser | .des | .bldl | .blda | .parse | .valid | .lsbw | .lsbr | .lsbx | .appe | .appd | .dec => 0

/-- The word of a command: RSV, MODE, OP from the top (30_encoding.md R55). -/
def encode (i : Instr) : Word := (0 : BitVec 22) ++ i.modeBits ++ i.op

/-- The mask of a command's row: MODE is free in ENC's row only (30_encoding.md R64). -/
def Instr.mask : Instr → Word
  | .enc _ => 0xFFFFFCFF
  | .ser | .des | .bldl | .blda | .parse | .valid | .lsbw | .lsbr | .lsbx | .appe | .appd | .dec => 0xFFFFFFFF

/-- One command of each row of the opcode table, in the table's order (30_encoding.md R56; ENC stands for its row). -/
def commandRows : List Instr :=
  [.ser, .des, .bldl, .blda, .parse, .valid, .lsbw, .lsbr, .lsbx, .appe, .appd, .enc 0, .dec]

/-- A word selects a row when `w & mask = match` (30_encoding.md R64). -/
def selectsRow (w : Word) (row : Instr) : Bool := decide (w &&& row.mask = encode row)

/-- The instruction the decoder reads from the bits `w` of an opcode-table row; bits from `nbits` up are 0. A command is
one 32-bit word, a number (20_memory.md R42; 30_encoding.md R61), so no byte order enters (log 16). -/
def decodeTableWord (nbits w : Nat) : Option Instr :=
  match decode (BitVec.ofNat 32 (w % 2 ^ nbits)) with
  | .ok i => some i
  | .error _ => none

end Sys2Proof
end

