-- ==== Sys2Proof/Config.lean ====
section
/-! DEFINITION. What an implementation fixes (00_scope.md R9) and the values the spec leaves free (10_state.md R33). -/

namespace Sys2Proof

/-- The five memory spaces (10_state.md R24 to R28). -/
inductive Space where
  | pix | pay | buf | sym | file
  deriving DecidableEq, Repr

/-- The implementation parameters of 00_scope.md R9, all natural numbers. -/
structure Config where
  /-- `CH`: channels stored per pixel in PIX. -/
  ch : Nat
  /-- `PIX_BYTES`: capacity of PIX in cells. -/
  pixBytes : Nat
  /-- `PAY_BYTES`: capacity of PAY in cells. -/
  payBytes : Nat
  /-- `BUF_BYTES`: capacity of BUF in cells. -/
  bufBytes : Nat
  /-- `SYM_CELLS`: capacity of SYM in cells. -/
  symCells : Nat
  /-- `FILE_BYTES`: capacity of FILE in cells. -/
  fileBytes : Nat
  deriving DecidableEq, Repr

namespace Config

/-- The constraints of 00_scope.md R9: its lower bounds, and every parameter below `2^64` (92_eei_decisions.md D2, which
R9 cites; 45_toplevel.md R100). What a configuration outside them means is in log 14. -/
abbrev Ok (c : Config) : Prop :=
  3 ≤ c.ch ∧ 12 ≤ c.bufBytes ∧ 48 ≤ c.symCells ∧ 12 ≤ c.fileBytes ∧
    c.payBytes < 2 ^ 64 ∧ c.bufBytes < 2 ^ 64 ∧ c.symCells < 2 ^ 64 ∧ c.fileBytes < 2 ^ 64 ∧
    c.pixBytes < 2 ^ 64 ∧ c.ch < 2 ^ 64

/-- The configuration of `State.reset`. `CH = 3` is the suggestion of 00_scope.md R9.
The capacities are open there: 2^20 cells each is a DESIGN CHOICE (log 1, unsafe). -/
def standard : Config where
  ch := 3
  pixBytes := 1048576
  payBytes := 1048576
  bufBytes := 1048576
  symCells := 1048576
  fileBytes := 1048576

/-- The capacity of a space in cells (00_scope.md R9). -/
def capacity (c : Config) : Space → Nat
  | .pix => c.pixBytes
  | .pay => c.payBytes
  | .buf => c.bufBytes
  | .sym => c.symCells
  | .file => c.fileBytes

/-- FREE VALUE: what a byte cell that nothing has written since the `epoch`-th reset holds: "a draw per cell, fixed
once drawn" (10_state.md R33; 93_implementation_defined.md U8; log 2). -/
opaque unwrittenByte : Space → (epoch addr : Nat) → Byte

/-- FREE VALUE: the same for a SYM cell, which is two bits wide (10_state.md R27, R33; log 2). -/
opaque unwrittenSymbol : (epoch addr : Nat) → Symbol

end Config

end Sys2Proof
end

