-- ==== Sys2Proof/Machine/State.lean ====
section
/-! DEFINITION. The state of the CORE (10_state.md R13), the host's actions on it (R31), the reasons a step can stop, and
the reset state (R32). -/

namespace Sys2Proof.Machine

/-- The error kinds of 60_exceptions.md R103. Their numbers are in Flags.lean. -/
inductive ErrorCode where
  | capacityExceeded
  | noHiddenData
  | invalidMode
  /-- Reserved for the host text layer, raised by nothing (60_exceptions.md R115). -/
  | payloadDecodeError
  | badFrame
  | badOperand
  | bufferOverflow
  | illegalCommand
  deriving DecidableEq, Repr

/-- STATUS.PATH: which decode path produced the payload (10_state.md R16). -/
inductive DecodePath where
  | none
  /-- The append trailer. -/
  | append
  /-- The LSB pixels. -/
  | lsb
  deriving DecidableEq, Repr

/-- What the host can do to the CORE between commands: registers by number and cells by (space, address), whole values
at a time (10_state.md R31; 20_memory.md R42), and reset (70_reset_and_hazards.md R116). -/
inductive HostAction where
  /-- Write a register by number. A write of register 0, CMD, runs the word written (10_state.md R15). -/
  | writeReg (reg : Nat) (value : BitVec 64)
  /-- Read a register by number. -/
  | readReg (reg : Nat)
  /-- Write one cell. A SYM cell keeps the low two bits (10_state.md R27). -/
  | writeCell (space : Space) (addr : Nat) (value : Byte)
  /-- Read one cell. -/
  | readCell (space : Space) (addr : Nat)
  /-- Reset the CORE. -/
  | reset
  deriving DecidableEq, Repr

/-- The host's write of `w` to CMD, which starts a command (10_state.md R15). -/
abbrev HostAction.command (w : Word) : HostAction := .writeReg 0 (w.setWidth 64)

/-- The whole state: the stored registers of 10_state.md R14 (CMD stores nothing, R15), the five spaces of R24 to R28,
and four fields of the model's own. A space lists its written cells, addresses strictly rising; a cell that is not listed
holds the free value of `Config.unwrittenByte` or `Config.unwrittenSymbol` (log 2, log 3). -/
structure State where
  /-- Register 1, STATUS. -/
  status : Word
  /-- Register 2, WIDTH. -/
  width : Word
  /-- Register 3, HEIGHT. -/
  height : Word
  /-- Register 4, PLEN. -/
  plen : Length
  /-- Register 5, BLEN. -/
  blen : Length
  /-- Register 6, SLEN. -/
  slen : Length
  /-- Register 7, FLEN. -/
  flen : Length
  /-- Register 8, PADF. -/
  padf : Word
  /-- Register 9, COUNT. -/
  count : Length
  /-- PIX, the pixel carrier. -/
  pix : List Host.Cell
  /-- PAY, the payload. -/
  pay : List Host.Cell
  /-- BUF, the frame and header buffer. -/
  buf : List Host.Cell
  /-- SYM, the symbol buffer. -/
  sym : List (Nat × Symbol)
  /-- FILE, the file byte stream. -/
  file : List Host.Cell
  /-- MODEL's own: the implementation parameters, changed by no step (00_scope.md R9; 10_state.md R34; log 1). -/
  cfg : Config
  /-- MODEL's own: counts the resets, and keys the free contents of unwritten cells (log 4). -/
  epoch : Nat
  /-- MODEL's own: the host's pending actions, oldest first (20_memory.md R52; log 5). -/
  inputs : List HostAction
  /-- MODEL's own: what the host's most recent read returned (log 6). -/
  readback : Option (BitVec 64)
  deriving DecidableEq, Repr

/-- Faults: none. No error leaves the CORE stuck, halted or in need of reset (60_exceptions.md R110); an error is a next
state with STATUS written (R108; log 12). -/
inductive Fault where
  deriving DecidableEq, Repr

/-- Refusals: what has no meaning in this architecture. -/
inductive Refusal where
  /-- Raised by `exec` for a command that has no meaning yet. Safe. No arm raises it. -/
  | notModelled (mnemonic : String)
  /-- Raised by a host access to a register number above 9: "a model refuses it" (10_state.md R31). Safe. -/
  | hostRegisterOutOfRange
  /-- Raised by a host access to a cell at or above the space's capacity: "a model refuses it" (10_state.md R31). Safe. -/
  | hostCellOutOfRange
  /-- Raised by a host write of 2^32 or more to CMD or to a 32-bit RW register, which 10_state.md R14 gives no effect
  (DESIGN CHOICE, log 8). Safe. -/
  | hostValueTooWide
  deriving DecidableEq, Repr

/-- The outcome of one step of this machine. -/
abbrev Result := Host.Outcome State Fault Refusal

/-- The CORE with configuration `cfg` just out of reset: every register at the value of 10_state.md R32, no cell written
(R33); the four fields of the model's own as given. -/
def State.atReset (cfg : Config) (epoch : Nat) (inputs : List HostAction) (readback : Option (BitVec 64)) : State where
  status := 0
  width := 0
  height := 0
  plen := 0
  blen := 0
  slen := 0
  flen := 0
  padf := 3
  count := 0
  pix := []
  pay := []
  buf := []
  sym := []
  file := []
  cfg := cfg
  epoch := epoch
  inputs := inputs
  readback := readback

/-- The machine right after reset (10_state.md R32, R33; 70_reset_and_hazards.md R116), with the standard configuration,
nothing pending and nothing read (DESIGN CHOICE: log 1, log 4, log 5, log 6). -/
def State.reset : State := State.atReset Config.standard 0 [] none

end Sys2Proof.Machine
end

