-- ==== Sys2Proof/Machine/Flags.lean ====
section
/-! DEFINITION. STATUS, the CORE's only flags: the layout of 10_state.md R16 and the codes of 60_exceptions.md R103. -/

namespace Sys2Proof.Machine

/-- The number of an error kind (60_exceptions.md R103). -/
def ErrorCode.number : ErrorCode → BitVec 4
  | .capacityExceeded => 1
  | .noHiddenData => 2
  | .invalidMode => 3
  | .payloadDecodeError => 4
  | .badFrame => 5
  | .badOperand => 6
  | .bufferOverflow => 7
  | .illegalCommand => 8

/-- The value of PATH; 3 is never produced (10_state.md R16). -/
def DecodePath.number : DecodePath → BitVec 2
  | .none => 0
  | .append => 1
  | .lsb => 2

/-- STATUS written whole: zero 31:7, PATH 6:5, FLAG 4, ERR 3:0 (10_state.md R16). -/
def packStatus (err : BitVec 4) (flag : Bool) (path : BitVec 2) : Word :=
  (0 : BitVec 25) ++ path ++ BitVec.ofBool flag ++ err

/-- STATUS after a `raise`: the code, FLAG 0, PATH 0 (60_exceptions.md R108). -/
def errorStatus (e : ErrorCode) : Word := packStatus e.number false 0

/-- STATUS after `done(flag, path)`: ERR 0 (60_exceptions.md R109). -/
def doneStatus (flag : Bool) (path : DecodePath) : Word := packStatus 0 flag path.number

/-- STATUS.ERR, bits 3:0 (10_state.md R16). -/
def State.err (s : State) : BitVec 4 := s.status.extractLsb' 0 4

/-- STATUS.FLAG, bit 4 (10_state.md R16). -/
def State.flag (s : State) : Bool := s.status.getLsbD 4

/-- STATUS.PATH, bits 6:5 (10_state.md R16). -/
def State.path (s : State) : BitVec 2 := s.status.extractLsb' 5 2

/-- The values STATUS can hold (10_state.md R16; 60_exceptions.md R103): bits 31:7 zero; ERR at most 8 and not 4; FLAG 0
when ERR is not 0; PATH 0 when FLAG is 0, and never 3. -/
abbrev LegalStatus (w : Word) : Prop :=
  w.extractLsb' 7 25 = 0 ∧ w.extractLsb' 0 4 ≤ 8#4 ∧ w.extractLsb' 0 4 ≠ 4#4 ∧
    (w.extractLsb' 0 4 ≠ 0#4 → w.getLsbD 4 = false) ∧
    (w.getLsbD 4 = false → w.extractLsb' 5 2 = 0#2) ∧ w.extractLsb' 5 2 ≠ 3#2

end Sys2Proof.Machine
end

