-- ==== Sys2Proof/Machine/Operands.lean ====
section
/-! DEFINITION. The byte formats, the packing of symbols, the geometry of the carrier and the addressing modes
(00_scope.md R8, R11; 20_memory.md R35 to R41, R47; 41_symbolcodec.md R67, R68; 43_lsbchannel.md R81, R82;
45_toplevel.md R132). All arithmetic is on unbounded naturals (45_toplevel.md R100). -/

namespace Sys2Proof.Machine

/-- `MAGIC_LSB`, the LSB-mode marker (00_scope.md R8). -/
def magicLsb : Nat := 0xDEADC0DE

/-- `MAGIC_APP`, the append-mode marker (00_scope.md R8). -/
def magicApp : Nat := 0x5AFEC0DE

/-- `be(v, n)` of 00_scope.md R11: byte `k` is `(v >> (8*(n-1-k))) & 0xFF`. -/
def be (v n : Nat) : List Byte := (List.range n).map fun k => BitVec.ofNat 8 (v >>> (8 * (n - 1 - k)))

/-- `le(v, n)` of 00_scope.md R11: byte `k` is `(v >> (8*k)) & 0xFF`. -/
def le (v n : Nat) : List Byte := (List.range n).map fun k => BitVec.ofNat 8 (v >>> (8 * k))

/-- `from_be` of 00_scope.md R11: the number of a byte sequence, most significant byte first. -/
def fromBe (bs : List Byte) : Nat := bs.foldl (fun v b => v * 256 + b.toNat) 0

/-- `from_le` of 00_scope.md R11: the number of a byte sequence, least significant byte first. -/
def fromLe : List Byte → Nat
  | [] => 0
  | b :: bs => b.toNat + 256 * fromLe bs

/-- The four symbols of a byte, bits 7:6 first (20_memory.md R37; 41_symbolcodec.md R67). -/
def symbolsOf (b : Byte) : List Symbol :=
  [b.extractLsb' 6 2, b.extractLsb' 4 2, b.extractLsb' 2 2, b.extractLsb' 0 2]

/-- `(s0<<6)|(s1<<4)|(s2<<2)|s3` (41_symbolcodec.md R68). -/
def byteOf (s0 s1 s2 s3 : Symbol) : Byte :=
  (s0.setWidth 8 <<< 6) ||| (s1.setWidth 8 <<< 4) ||| (s2.setWidth 8 <<< 2) ||| s3.setWidth 8

/-- `(ch & 0xFC) | s`: the symbol in the low two bits, the upper six untouched (20_memory.md R47). -/
def insertSymbol (channel : Byte) (v : Symbol) : Byte := (channel &&& 0xFC#8) ||| v.setWidth 8

/-- `ch & 3`: the symbol a channel carries (43_lsbchannel.md R85). -/
def lowSymbol (channel : Byte) : Symbol := channel.setWidth 2

/-- The PIX address of channel `c` of pixel `p` (20_memory.md R40). -/
def pixelAddr (ch p c : Nat) : Nat := p * ch + c

/-- Raster addressing: the PIX address of symbol `i` (20_memory.md R41; 45_toplevel.md R132). -/
def rasterAddr (ch i : Nat) : Nat := pixelAddr ch (i / 3) (i % 3)

/-- `NPIX`, the number of pixels of the carrier (10_state.md R17). -/
def State.npix (s : State) : Nat := s.width.toNat * s.height.toNat

/-- `NSYM`, the number of symbol positions of the carrier (43_lsbchannel.md R81). -/
def State.nsym (s : State) : Nat := 3 * s.npix

/-- The negation of `geometry_ok`: the grid does not fit PIX (43_lsbchannel.md R81). -/
def State.gridTooLarge (s : State) : Bool := decide (s.npix * s.cfg.ch > s.cfg.pixBytes)

/-- `floor(WIDTH * HEIGHT * 6 / 8)`, the capacity of the carrier in frame bytes (43_lsbchannel.md R82). -/
def State.frameCapacity (s : State) : Nat := s.npix * 6 / 8

/-- `padlen(n, pf)` of 41_symbolcodec.md R67: the length of `n` bytes serialized with factor `pf`. -/
def padlen (n pf : Nat) : Nat :=
  if 4 * n % pf = 0 then 4 * n else 4 * n + pf - 4 * n % pf

/-- How many zero symbols `serialize` appends (41_symbolcodec.md R67). -/
def padCount (n pf : Nat) : Nat := (pf - 4 * n % pf) % pf

end Sys2Proof.Machine
end

