-- ==== Sys2Proof/Machine/Ops.lean ====
section
/-! DEFINITION. The named operations over the spaces and the registers, the end of a command (`done`) and its error entry
(`raise`). -/

namespace Sys2Proof.Machine

/-! ### Spaces as lists of written cells -/

/-- The form every space keeps: addresses strictly rising, so no cell is listed twice. A cell nothing has written is not
listed; it holds a free value, so no listed value can be compared with it (log 3). -/
abbrev Memory.wf {w : Nat} (m : List (Nat × BitVec w)) : Prop := m.Pairwise fun x y => x.1 < y.1

/-- Every listed cell lies below the capacity (20_memory.md R49, R50). -/
abbrev Memory.within {w : Nat} (capacity : Nat) (m : List (Nat × BitVec w)) : Prop := ∀ x ∈ m, x.1 < capacity

/-- The value written at an address, or `none` where nothing has been written. -/
def Memory.lookup {w : Nat} : List (Nat × BitVec w) → Nat → Option (BitVec w)
  | [], _ => none
  | (b, v) :: rest, a => if b = a then some v else Memory.lookup rest a

/-- Consecutive cells from `a` on. -/
def Memory.cellsFrom {w : Nat} : Nat → List (BitVec w) → List (Nat × BitVec w)
  | _, [] => []
  | a, v :: vs => (a, v) :: Memory.cellsFrom (a + 1) vs

/-- `MemWrite` of 00_scope.md R11: the sequence `vs` from address `a` on, every other cell kept. -/
def Memory.write {w : Nat} (m : List (Nat × BitVec w)) (a : Nat) (vs : List (BitVec w)) : List (Nat × BitVec w) :=
  m.filter (fun x => decide (x.1 < a)) ++ Memory.cellsFrom a vs ++
    m.filter (fun x => decide (a + vs.length ≤ x.1))

/-- One cell: the value written last, or the free value `fresh a` where nothing has been written (10_state.md R33). -/
def Memory.read {w : Nat} (fresh : Nat → BitVec w) (m : List (Nat × BitVec w)) (a : Nat) : BitVec w :=
  (Memory.lookup m a).getD (fresh a)

/-- `MemRead` of 00_scope.md R11: `n` consecutive cells from `a` on, lowest address first, `cell` reading one. -/
def readCells {α : Type} (cell : Nat → α) (a n : Nat) : List α := (List.range n).map fun k => cell (a + k)

/-! ### One cell of each space -/

/-- `PIX[a]`. -/
def State.pixAt (s : State) (a : Nat) : Byte := Memory.read (Config.unwrittenByte .pix s.epoch) s.pix a

/-- `PAY[a]`. -/
def State.payAt (s : State) (a : Nat) : Byte := Memory.read (Config.unwrittenByte .pay s.epoch) s.pay a

/-- `BUF[a]`. -/
def State.bufAt (s : State) (a : Nat) : Byte := Memory.read (Config.unwrittenByte .buf s.epoch) s.buf a

/-- `SYM[a]`. -/
def State.symAt (s : State) (a : Nat) : Symbol := Memory.read (Config.unwrittenSymbol s.epoch) s.sym a

/-- `FILE[a]`. -/
def State.fileAt (s : State) (a : Nat) : Byte := Memory.read (Config.unwrittenByte .file s.epoch) s.file a

/-- The payload `PAY[0..PLEN)` (10_state.md R18). -/
def State.payload (s : State) : List Byte := readCells s.payAt 0 s.plen.toNat

/-! ### Results written to a space and its length register -/

/-- `SYM[0..n) <- ss`, `SLEN <- n`. -/
def State.putSymbols (s : State) (ss : List Symbol) : State :=
  { s with sym := Memory.write s.sym 0 ss, slen := BitVec.ofNat 64 ss.length }

/-- `BUF[0..n) <- bs`, `BLEN <- n`. -/
def State.putBytes (s : State) (bs : List Byte) : State :=
  { s with buf := Memory.write s.buf 0 bs, blen := BitVec.ofNat 64 bs.length }

/-- `PAY[0..n) <- q`, `PLEN <- n`. -/
def State.putPayload (s : State) (q : List Byte) : State :=
  { s with pay := Memory.write s.pay 0 q, plen := BitVec.ofNat 64 q.length }

/-- `FILE[FLEN..FLEN+n) <- bs`, `FLEN <- FLEN + n`, the writes using the old FLEN (45_toplevel.md R132). -/
def State.appendFile (s : State) (bs : List Byte) : State :=
  { s with
    file := Memory.write s.file s.flen.toNat bs
    flen := BitVec.ofNat 64 (s.flen.toNat + bs.length) }

/-- `PIXCH(i div 3, i mod 3) <- (PIXCH(i div 3, i mod 3) & 0xFC) | v` (43_lsbchannel.md R83). -/
def State.writeSymbol (s : State) (i : Nat) (v : Symbol) : State :=
  { s with
    pix := Memory.write s.pix (rasterAddr s.cfg.ch i) [insertSymbol (s.pixAt (rasterAddr s.cfg.ch i)) v] }

/-- The loop of `write(ss)`, front to back, symbol `i` first (43_lsbchannel.md R83). -/
def State.writeSymbolsFrom (s : State) (i : Nat) : List Symbol → State
  | [] => s
  | v :: vs => (s.writeSymbol i v).writeSymbolsFrom (i + 1) vs

/-- The symbol at position `i` of the carrier (43_lsbchannel.md R85). -/
def State.carrierSymbol (s : State) (i : Nat) : Symbol := lowSymbol (s.pixAt (rasterAddr s.cfg.ch i))

/-- `readFirst(k)` (43_lsbchannel.md R85). -/
def State.readFirst (s : State) (k : Nat) : List Symbol := readCells s.carrierSymbol 0 k

/-! ### The end of a command -/

/-- Error entry (60_exceptions.md R108): STATUS is written with the code, FLAG 0, PATH 0; nothing else changes; control
goes nowhere. There is no return from it (R110). -/
def State.raise (s : State) (e : ErrorCode) : Result := .next { s with status := errorStatus e }

/-- `done(flag, path)` (00_scope.md R11; 60_exceptions.md R109). -/
def State.done (s : State) (flag : Bool) (path : DecodePath) : Result := .next { s with status := doneStatus flag path }

/-- `done()`: both arguments left out (00_scope.md R11). -/
def State.doneOk (s : State) : Result := s.done false .none

/-- The end PARSE, APPD, LSBX and DEC share: the payload to PAY and PLEN if it fits (42_framecodec.md R78). -/
def State.deliver (s : State) (q : List Byte) (path : DecodePath) : Result :=
  if q.length > s.cfg.payBytes then s.raise .bufferOverflow
  else (s.putPayload q).done true path

/-- The end PARSE, APPD and LSBX share: an error raised, "not found" a success with FLAG 0, a payload delivered
(60_exceptions.md R109). -/
def State.finishDecode (s : State) (found : Except ErrorCode (Option (List Byte))) (path : DecodePath) : Result :=
  match found with
  | .error e => s.raise e
  | .ok none => s.done false .none
  | .ok (some q) => s.deliver q path

end Sys2Proof.Machine
end

