-- ==== Sys2Proof/Machine/FrameCodec.lean ====
section
/-! DEFINITION. FrameCodec: the two frames, the trailer parser, the header check, BLDL, BLDA, PARSE and VALID
(42_framecodec.md). -/

namespace Sys2Proof.Machine

/-- `buildLSBFrame(p)` (42_framecodec.md R73). -/
def buildLsbFrame (p : List Byte) : List Byte := be magicLsb 4 ++ be p.length 8 ++ p

/-- `buildAppendFrame(p)` (42_framecodec.md R75). -/
def buildAppendFrame (p : List Byte) : List Byte := p ++ be p.length 8 ++ le magicApp 4

/-- `parseAppendTrailer(fb)` (42_framecodec.md R77) of the file whose byte `k` is `fb k` and whose length is `nf`. It
reads the cells 45_toplevel.md R132 lists and no other. -/
def parseAppendTrailer (fb : Nat → Byte) (nf : Nat) : Except ErrorCode (Option (List Byte)) :=
  if nf < 4 then .ok none
  else if fromLe (readCells fb (nf - 4) 4) ≠ magicApp then .ok none
  else if nf < 12 then .error .badFrame
  else
    let n := fromBe (readCells fb (nf - 12) 8)
    if n > nf - 12 then .error .badFrame
    else .ok (some (readCells fb (nf - 12 - n) n))

/-- `validateLSBHeader(h)`: the first four bytes against the LSB magic, big-endian (42_framecodec.md R79). -/
def validateLsbHeader (h : List Byte) : Bool := decide (fromBe (h.take 4) = magicLsb)

/-- A frame to BUF, for BLDL and BLDA, whose guards are the same (42_framecodec.md R74, R76). -/
def State.buildFrame (s : State) (frame : List Byte → List Byte) : Result :=
  if s.plen.toNat > s.cfg.payBytes then s.raise .badOperand
  else if s.plen.toNat + 12 > s.cfg.bufBytes then s.raise .bufferOverflow
  else (s.putBytes (frame s.payload)).doneOk

/-- The trailer of FILE to PAY, for PARSE and APPD, whose pseudocode is the same (42_framecodec.md R78;
44_appendchannel.md R91). -/
def State.trailerToPayload (s : State) : Result :=
  if s.flen.toNat > s.cfg.fileBytes then s.raise .badOperand
  else s.finishDecode (parseAppendTrailer s.fileAt s.flen.toNat) .append

/-- BLDL, 42_framecodec.md R74. -/
def execBldl (s : State) : Result := s.buildFrame buildLsbFrame

/-- BLDA, 42_framecodec.md R76. -/
def execBlda (s : State) : Result := s.buildFrame buildAppendFrame

/-- PARSE, 42_framecodec.md R78. -/
def execParse (s : State) : Result := s.trailerToPayload

/-- VALID, 42_framecodec.md R80. -/
def execValid (s : State) : Result :=
  if s.blen.toNat > s.cfg.bufBytes then s.raise .badOperand
  else if s.blen.toNat < 12 then s.raise .badOperand
  else s.done (validateLsbHeader (readCells s.bufAt 0 12)) .none

end Sys2Proof.Machine
end

