-- ==== Sys2Proof/Machine/AppendChannel.lean ====
section
/-! DEFINITION. AppendChannel: APPE and APPD (44_appendchannel.md). -/

namespace Sys2Proof.Machine

/-- The append frame of the payload after FILE, for APPE and ENC with MODE 1 (44_appendchannel.md R89, R90;
45_toplevel.md R93). -/
def State.appendPayload (s : State) : Result :=
  if s.plen.toNat > s.cfg.payBytes then s.raise .badOperand
  else if s.flen.toNat > s.cfg.fileBytes then s.raise .badOperand
  else if s.flen.toNat + s.plen.toNat + 12 > s.cfg.fileBytes then s.raise .bufferOverflow
  else (s.appendFile (buildAppendFrame s.payload)).doneOk

/-- APPE, 44_appendchannel.md R90. -/
def execAppe (s : State) : Result := s.appendPayload

/-- APPD, 44_appendchannel.md R91: "identical to PARSE, line for line". -/
def execAppd (s : State) : Result := s.trailerToPayload

end Sys2Proof.Machine
end

