-- ==== Sys2Proof/Machine/SymbolCodec.lean ====
section
/-! DEFINITION. SymbolCodec: `serialize`, `deserialize`, SER and DES (41_symbolcodec.md). -/

namespace Sys2Proof.Machine

/-- `serialize(bs, pf)`, `pf >= 1` (41_symbolcodec.md R67). -/
def serialize (bs : List Byte) (pf : Nat) : List Symbol :=
  bs.flatMap symbolsOf ++ List.replicate (padCount bs.length pf) 0

/-- `deserialize(ss)`: complete groups of four from the front, an incomplete last group dropped (41_symbolcodec.md R68). -/
def deserialize : List Symbol → List Byte
  | s0 :: s1 :: s2 :: s3 :: rest => byteOf s0 s1 s2 s3 :: deserialize rest
  | _ => []

/-- SER, 41_symbolcodec.md R69. -/
def execSer (s : State) : Result :=
  if s.blen.toNat > s.cfg.bufBytes then s.raise .badOperand
  else if s.padf = 0 then s.raise .badOperand
  else if padlen s.blen.toNat s.padf.toNat > s.cfg.symCells then s.raise .bufferOverflow
  else (s.putSymbols (serialize (readCells s.bufAt 0 s.blen.toNat) s.padf.toNat)).doneOk

/-- DES, 41_symbolcodec.md R70. -/
def execDes (s : State) : Result :=
  if s.slen.toNat > s.cfg.symCells then s.raise .badOperand
  else if s.slen.toNat / 4 > s.cfg.bufBytes then s.raise .bufferOverflow
  else (s.putBytes (deserialize (readCells s.symAt 0 s.slen.toNat))).doneOk

end Sys2Proof.Machine
end

