-- ==== Sys2Proof/Machine/LsbChannel.lean ====
section
/-! DEFINITION. LSBChannel: the two-phase extraction, LSBW, LSBR and LSBX (43_lsbchannel.md). -/

namespace Sys2Proof.Machine

/-- `extractLSB()` (43_lsbchannel.md R87): the header scan, the magic, the length, then a second scan from symbol 0. -/
def State.extractLsb (s : State) : Except ErrorCode (Option (List Byte)) :=
  if s.nsym < 48 then .ok none
  else
    let hdr := deserialize (s.readFirst 48)
    if validateLsbHeader hdr = false then .ok none
    else
      let n := fromBe ((hdr.drop 4).take 8)
      if 48 + 4 * n > s.nsym then .error .badFrame
      else .ok (some (deserialize ((s.readFirst (48 + 4 * n)).drop 48)))

/-- LSBW, 43_lsbchannel.md R84. -/
def execLsbw (s : State) : Result :=
  if s.slen.toNat > s.cfg.symCells then s.raise .badOperand
  else if s.gridTooLarge then s.raise .badOperand
  else if s.slen.toNat > s.nsym then s.raise .capacityExceeded
  else (s.writeSymbolsFrom 0 (readCells s.symAt 0 s.slen.toNat)).doneOk

/-- LSBR, 43_lsbchannel.md R86. -/
def execLsbr (s : State) : Result :=
  if s.gridTooLarge then s.raise .badOperand
  else if s.count.toNat > s.nsym then s.raise .badOperand
  else if s.count.toNat > s.cfg.symCells then s.raise .bufferOverflow
  else (s.putSymbols (s.readFirst s.count.toNat)).doneOk

/-- LSBX, 43_lsbchannel.md R88. -/
def execLsbx (s : State) : Result :=
  if s.gridTooLarge then s.raise .badOperand
  else s.finishDecode s.extractLsb .lsb

end Sys2Proof.Machine
end

