-- ==== Sys2Proof/Machine/TopLevel.lean ====
section
/-! DEFINITION. The top level: ENC and DEC (45_toplevel.md). -/

namespace Sys2Proof.Machine

/-- `encodeLSB` under its guards: ENC with MODE 0 (45_toplevel.md R92, R93). The inner `write` cannot raise (R94), and
the padding factor is 3, not PADF (10_state.md R21). -/
def State.embedPayload (s : State) : Result :=
  if s.plen.toNat > s.cfg.payBytes then s.raise .badOperand
  else if s.gridTooLarge then s.raise .badOperand
  else if s.plen.toNat + 12 > s.frameCapacity then s.raise .capacityExceeded
  else (s.writeSymbolsFrom 0 (serialize (buildLsbFrame s.payload) 3)).doneOk

/-- ENC, 45_toplevel.md R93: the mode first, then MODE 0 to the pixels, MODE 1 to FILE. A MODE of 4 or more is no
well-formed command and takes the same error (log 15). -/
def execEnc (mode : Nat) (s : State) : Result :=
  match mode with
  | 0 => s.embedPayload
  | 1 => s.appendPayload
  | _ => s.raise .invalidMode

/-- `decodeAny()` (45_toplevel.md R95): the trailer, then the pixels, then `NoHiddenData`. -/
def State.decodeAny (s : State) : Except ErrorCode (List Byte × DecodePath) :=
  match parseAppendTrailer s.fileAt s.flen.toNat with
  | .error e => .error e
  | .ok (some q) => .ok (q, .append)
  | .ok none =>
    match s.extractLsb with
    | .error e => .error e
    | .ok (some q) => .ok (q, .lsb)
    | .ok none => .error .noHiddenData

/-- DEC, 45_toplevel.md R96. -/
def execDec (s : State) : Result :=
  if s.flen.toNat > s.cfg.fileBytes then s.raise .badOperand
  else if s.gridTooLarge then s.raise .badOperand
  else
    match s.decodeAny with
    | .error e => s.raise e
    | .ok (q, path) => s.deliver q path

end Sys2Proof.Machine
end

