-- ==== Sys2Proof/Machine/Dispatch.lean ====
section
/-! DEFINITION. One arm per command: its meaning. -/

namespace Sys2Proof.Machine

def exec (i : Instr) (s : State) : Host.Outcome State Fault Refusal :=
  match i with
  -- SymbolCodec
  | .ser => Sys2Proof.Machine.execSer s
  | .des => Sys2Proof.Machine.execDes s
  -- FrameCodec
  | .bldl => Sys2Proof.Machine.execBldl s
  | .blda => Sys2Proof.Machine.execBlda s
  | .parse => Sys2Proof.Machine.execParse s
  | .valid => Sys2Proof.Machine.execValid s
  -- LSBChannel
  | .lsbw => Sys2Proof.Machine.execLsbw s
  | .lsbr => Sys2Proof.Machine.execLsbr s
  | .lsbx => Sys2Proof.Machine.execLsbx s
  -- AppendChannel
  | .appe => Sys2Proof.Machine.execAppe s
  | .appd => Sys2Proof.Machine.execAppd s
  -- top level
  | .enc mode => Sys2Proof.Machine.execEnc mode s
  | .dec => Sys2Proof.Machine.execDec s

end Sys2Proof.Machine
end

