-- ==== Sys2Proof/Machine/HostAccess.lean ====
section
/-! DEFINITION. What each host action does: register and cell accesses, the write to CMD that runs a command, and reset
(10_state.md R14 to R16, R27, R31; 70_reset_and_hazards.md R116). -/

namespace Sys2Proof.Machine

/-- A write of `w` to CMD decodes `w` and runs the command to its end (10_state.md R15); an illegal word raises
`IllegalCommand` (30_encoding.md R59). -/
def State.runWord (s : State) (w : Word) : Result :=
  match decode w with
  | .ok i => exec i s
  | .error _ => s.raise .illegalCommand

/-- A 32-bit register takes a value below 2^32; a wider one is refused (DESIGN CHOICE, log 8). -/
def write32 (v : BitVec 64) (k : Word → Result) : Result :=
  if v.toNat < 2 ^ 32 then k (v.setWidth 32) else .refused .hostValueTooWide

/-- Host write of a register by number (10_state.md R14): CMD runs, STATUS ignores (R16), the others take the value. -/
def State.hostWriteReg (s : State) (reg : Nat) (v : BitVec 64) : Result :=
  match reg with
  | 0 => write32 v s.runWord
  | 1 => .next s
  | 2 => write32 v fun w => .next { s with width := w }
  | 3 => write32 v fun w => .next { s with height := w }
  | 4 => .next { s with plen := v }
  | 5 => .next { s with blen := v }
  | 6 => .next { s with slen := v }
  | 7 => .next { s with flen := v }
  | 8 => write32 v fun w => .next { s with padf := w }
  | 9 => .next { s with count := v }
  | _ => .refused .hostRegisterOutOfRange

/-- What a host read of a register returns, by number; CMD reads 0 (10_state.md R14, R15). -/
def State.regValue (s : State) (reg : Nat) : Option (BitVec 64) :=
  match reg with
  | 0 => some 0
  | 1 => some (s.status.setWidth 64)
  | 2 => some (s.width.setWidth 64)
  | 3 => some (s.height.setWidth 64)
  | 4 => some s.plen
  | 5 => some s.blen
  | 6 => some s.slen
  | 7 => some s.flen
  | 8 => some (s.padf.setWidth 64)
  | 9 => some s.count
  | _ => none

/-- Host read of a register: no effect but the value returned (10_state.md R15; 20_memory.md R48). -/
def State.hostReadReg (s : State) (reg : Nat) : Result :=
  match s.regValue reg with
  | some v => .next { s with readback := some v }
  | none => .refused .hostRegisterOutOfRange

/-- What a host read of a cell returns, as a 64-bit value (10_state.md R31). -/
def State.cellValue (s : State) (sp : Space) (a : Nat) : BitVec 64 :=
  match sp with
  | .pix => (s.pixAt a).setWidth 64
  | .pay => (s.payAt a).setWidth 64
  | .buf => (s.bufAt a).setWidth 64
  | .sym => (s.symAt a).setWidth 64
  | .file => (s.fileAt a).setWidth 64

/-- One cell written; a SYM cell takes the low two bits (10_state.md R27). -/
def State.setCell (s : State) (sp : Space) (a : Nat) (v : Byte) : State :=
  match sp with
  | .pix => { s with pix := Memory.write s.pix a [v] }
  | .pay => { s with pay := Memory.write s.pay a [v] }
  | .buf => { s with buf := Memory.write s.buf a [v] }
  | .sym => { s with sym := Memory.write s.sym a [v.setWidth 2] }
  | .file => { s with file := Memory.write s.file a [v] }

/-- Host write of a cell; an address at or above the capacity is refused (10_state.md R31). -/
def State.hostWriteCell (s : State) (sp : Space) (a : Nat) (v : Byte) : Result :=
  if a < s.cfg.capacity sp then .next (s.setCell sp a v) else .refused .hostCellOutOfRange

/-- Host read of a cell; an address at or above the capacity is refused (10_state.md R31). -/
def State.hostReadCell (s : State) (sp : Space) (a : Nat) : Result :=
  if a < s.cfg.capacity sp then .next { s with readback := some (s.cellValue sp a) }
  else .refused .hostCellOutOfRange

/-- Reset: every register at its reset value, every cell unspecified anew (70_reset_and_hazards.md R116; log 4, log 10).
The configuration, the host's further actions and what it has read stay. -/
def State.hostReset (s : State) : State := State.atReset s.cfg (s.epoch + 1) s.inputs s.readback

/-- One host action on a state from whose queue it has been taken. -/
def State.hostAct (s : State) (act : HostAction) : Result :=
  match act with
  | .writeReg reg v => s.hostWriteReg reg v
  | .readReg reg => s.hostReadReg reg
  | .writeCell sp a v => s.hostWriteCell sp a v
  | .readCell sp a => s.hostReadCell sp a
  | .reset => .next s.hostReset

end Sys2Proof.Machine
end

