-- ==== Sys2Proof/Machine/Step.lean ====
section
/-! DEFINITION. One step: the host's oldest pending action, whole (10_state.md R15; 20_memory.md R52). -/

namespace Sys2Proof.Machine

/-- With nothing pending the CORE waits for the host (70_reset_and_hazards.md R118; log 7). -/
def step (s : State) : Host.Outcome State Fault Refusal :=
  match s.inputs with
  | [] => .next s
  | act :: rest => State.hostAct { s with inputs := rest } act

/-- The CORE fetches no program: a command comes from a host write to CMD (10_state.md R22; 20_memory.md R54). This puts
the write of the word `w` (bits from `nbits` up are 0) before every other pending action (log 5). -/
def State.withFetchWord (s : State) (nbits w : Nat) : State :=
  { s with inputs := .command (BitVec.ofNat 32 (w % 2 ^ nbits)) :: s.inputs }

end Sys2Proof.Machine
end

