-- ==== Sys2Proof/Safety.lean ====
section
/-! DEFINITION. The terms claims use: the invariant of a state, which host sessions stay inside the architecture, where a
frame's bytes stand, what each command may write and which errors it may end with. -/

namespace Sys2Proof.Machine

/-- The invariant of a state: the configuration meets its constraints, every space keeps its form and its capacity, and
STATUS holds one of its legal values (00_scope.md R9; 10_state.md R16; 20_memory.md R49, R50). -/
abbrev State.Inv (s : State) : Prop :=
  s.cfg.Ok ∧
    (Memory.wf s.pix ∧ Memory.wf s.pay ∧ Memory.wf s.buf ∧ Memory.wf s.sym ∧ Memory.wf s.file) ∧
    (Memory.within s.cfg.pixBytes s.pix ∧ Memory.within s.cfg.payBytes s.pay ∧
      Memory.within s.cfg.bufBytes s.buf ∧ Memory.within s.cfg.symCells s.sym ∧
      Memory.within s.cfg.fileBytes s.file) ∧
    LegalStatus s.status

/-- Registers of 32 bits (10_state.md R14). -/
def narrowRegs : List Nat := [0, 2, 3, 8]

/-- A host action inside the architecture: registers 0 to 9, values that fit, cells below the capacity (10_state.md R14,
R31). -/
abbrev HostAction.Legal (cfg : Config) : HostAction → Prop
  | .writeReg reg v => reg ≤ 9 ∧ (reg ∈ narrowRegs → v.toNat < 2 ^ 32)
  | .readReg reg => reg ≤ 9
  | .writeCell sp a _ => a < cfg.capacity sp
  | .readCell sp a => a < cfg.capacity sp
  | .reset => True

/-- Every pending host action is inside the architecture. -/
def State.InputsLegal (s : State) : Prop := ∀ act ∈ s.inputs, act.Legal s.cfg

/-- `cell` holds the 8-byte big-endian length `n` at `a` to `a + 7` (20_memory.md R35). -/
abbrev HoldsLength (cell : Nat → Byte) (a n : Nat) : Prop :=
  n < 2 ^ 64 ∧ ∀ k, k < 8 → cell (a + k) = BitVec.ofNat 8 (n / 2 ^ (8 * (7 - k)))

/-- FILE ends in the append magic, bytes `DE C0 FE 5A` (42_framecodec.md R77; 45_toplevel.md R97). -/
abbrev State.EndsInAppendMagic (s : State) : Prop :=
  4 ≤ s.flen.toNat ∧ s.fileAt (s.flen.toNat - 4) = 0xDE#8 ∧ s.fileAt (s.flen.toNat - 3) = 0xC0#8 ∧
    s.fileAt (s.flen.toNat - 2) = 0xFE#8 ∧ s.fileAt (s.flen.toNat - 1) = 0x5A#8

/-- The PIX address of symbol `i`: pixel `i div 3`, channel `i mod 3` (20_memory.md R40, R41). -/
abbrev State.symbolAddr (s : State) (i : Nat) : Nat := i / 3 * s.cfg.ch + i % 3

/-- The symbol in the low two bits of the carrier at position `i` (20_memory.md R41; 43_lsbchannel.md R85). -/
abbrev State.hiddenSymbol (s : State) (i : Nat) : Symbol := (s.pixAt (s.symbolAddr i)).setWidth 2

/-- Byte `k` of the symbol stream in the carrier, most significant symbol first (20_memory.md R37, R38). -/
abbrev State.hiddenByte (s : State) (k : Nat) : Byte :=
  s.hiddenSymbol (4 * k) ++ s.hiddenSymbol (4 * k + 1) ++ s.hiddenSymbol (4 * k + 2) ++ s.hiddenSymbol (4 * k + 3)

/-- The carrier has 48 symbol positions and its first four hidden bytes are `DE AD C0 DE` (42_framecodec.md R79;
43_lsbchannel.md R87). -/
abbrev State.StartsWithLsbMagic (s : State) : Prop :=
  48 ≤ 3 * (s.width.toNat * s.height.toNat) ∧ s.hiddenByte 0 = 0xDE#8 ∧ s.hiddenByte 1 = 0xAD#8 ∧
    s.hiddenByte 2 = 0xC0#8 ∧ s.hiddenByte 3 = 0xDE#8

/-- `PAY[0..n)` of `t` is `cell 0, cell 1, …`, PLEN is `n`, STATUS is `status`, and every other cell and register is as
in `s`: what a command that returns a payload leaves (42_framecodec.md R78; 10_state.md R30). -/
def ReturnsPayload (s t : State) (n : Nat) (cell : Nat → Byte) (status : Word) : Prop :=
  t = { s with status := status, pay := t.pay, plen := t.plen } ∧ t.plen.toNat = n ∧
    (∀ k, k < n → t.payAt k = cell k) ∧ ∀ a, n ≤ a → t.payAt a = s.payAt a

/-- The columns marked "w" or "rw" of 10_state.md R30, and STATUS: everything else of `t` is as in `s`. -/
def WritesAtMost (i : Instr) (s t : State) : Prop :=
  match i with
  | .ser | .lsbr => t = { s with status := t.status, sym := t.sym, slen := t.slen }
  | .des | .bldl | .blda => t = { s with status := t.status, buf := t.buf, blen := t.blen }
  | .parse | .appd | .lsbx | .dec => t = { s with status := t.status, pay := t.pay, plen := t.plen }
  | .valid => t = { s with status := t.status }
  | .lsbw | .enc 0 => t = { s with status := t.status, pix := t.pix }
  | .appe | .enc 1 => t = { s with status := t.status, file := t.file, flen := t.flen }
  | .enc _ => t = { s with status := t.status }

/-- The error codes marked for a command in 60_exceptions.md R104. -/
def markedErrors : Instr → List (BitVec 4)
  | .ser | .des | .bldl | .blda | .lsbr | .appe => [6, 7]
  | .parse | .lsbx | .appd => [5, 6, 7]
  | .valid => [6]
  | .lsbw => [1, 6]
  | .enc 0 => [1, 6]
  | .enc 1 => [6, 7]
  | .enc _ => [3]
  | .dec => [2, 5, 6, 7]

end Sys2Proof.Machine
end

