-- ==== Sys2Proof/Certificates/Slice0/Obligations.lean ====
section
/-! DEFINITION. The statements for the provers. They hold for every configuration (`State.cfg`) and for every value of the
free contents of unwritten cells. A host action is an entry of the queue `State.inputs`, and what a read returns stands in
`State.readback`: both are the model's form of the host (log 5, log 6). -/

open Sys2Proof Sys2Proof.Machine Host

/-! ### Encoding -/

/-- Words of every command decode to it, written out from the fields of 30_encoding.md R55 (RSV, MODE, OP). -/
def Obligations.CommandWordsDecode : Prop :=
  decode 0b0000000000000000000000_00_00000001#32 = .ok .ser ∧
  decode 0b0000000000000000000000_00_00000010#32 = .ok .des ∧
  decode 0b0000000000000000000000_00_00000011#32 = .ok .bldl ∧
  decode 0b0000000000000000000000_00_00000100#32 = .ok .blda ∧
  decode 0b0000000000000000000000_00_00000101#32 = .ok .parse ∧
  decode 0b0000000000000000000000_00_00000110#32 = .ok .valid ∧
  decode 0b0000000000000000000000_00_00000111#32 = .ok .lsbw ∧
  decode 0b0000000000000000000000_00_00001000#32 = .ok .lsbr ∧
  decode 0b0000000000000000000000_00_00001001#32 = .ok .lsbx ∧
  decode 0b0000000000000000000000_00_00001010#32 = .ok .appe ∧
  decode 0b0000000000000000000000_00_00001011#32 = .ok .appd ∧
  decode 0b0000000000000000000000_00_00001100#32 = .ok (.enc 0) ∧
  decode 0b0000000000000000000000_01_00001100#32 = .ok (.enc 1) ∧
  decode 0b0000000000000000000000_10_00001100#32 = .ok (.enc 2) ∧
  decode 0b0000000000000000000000_11_00001100#32 = .ok (.enc 3) ∧
  decode 0b0000000000000000000000_00_00001101#32 = .ok .dec

/-- R65: the sixteen legal words and the command each stands for; every other 32-bit word is illegal; MODE 2 and MODE 3
make ENC raise `InvalidMode`. -/
def Obligations.SixteenWordsAreLegal : Prop :=
  (∀ (w : Word) (i : Instr), decode w = .ok i ↔
    (w, i) ∈ [(0x00000001#32, .ser), (0x00000002#32, .des), (0x00000003#32, .bldl), (0x00000004#32, .blda),
      (0x00000005#32, .parse), (0x00000006#32, .valid), (0x00000007#32, .lsbw), (0x00000008#32, .lsbr),
      (0x00000009#32, .lsbx), (0x0000000A#32, .appe), (0x0000000B#32, .appd), (0x0000000C#32, .enc 0),
      (0x0000010C#32, .enc 1), (0x0000020C#32, .enc 2), (0x0000030C#32, .enc 3), (0x0000000D#32, .dec)]) ∧
  ∀ s : State, exec (.enc 2) s = .next { s with status := 3 } ∧ exec (.enc 3) s = .next { s with status := 3 }

/-- R59: exactly which words are illegal, in the fields of the word; a host write of one to CMD sets STATUS.ERR to 8, FLAG
and PATH to 0, and changes nothing else. -/
def Obligations.IllegalWordsRaiseCode8 : Prop :=
  ∀ w : Word,
    ((∃ e, decode w = .error e) ↔
      (w.toNat % 2 ^ 8 = 0 ∨ 0x0E ≤ w.toNat % 2 ^ 8) ∨ w.toNat / 2 ^ 10 ≠ 0 ∨
        (w.toNat / 2 ^ 8 % 4 ≠ 0 ∧ w.toNat % 2 ^ 8 ≠ 0x0C)) ∧
    ∀ (s : State) (rest : List HostAction), s.inputs = .writeReg 0 (w.setWidth 64) :: rest →
      (∃ e, decode w = .error e) → step s = .next { s with inputs := rest, status := 0x00000008 }

/-- Decode and encode agree in both directions: a word decodes to `i` exactly when `i` is well formed and the word is
`encode i`, with MODE at every value it admits. -/
def Obligations.DecodeInvertsEncode : Prop :=
  ∀ (w : Word) (i : Instr), decode w = .ok i ↔ i.wellFormed = true ∧ encode i = w

/-- R64 in match and mask form: a word selects at most one row; it selects the row of the command it decodes to and
none when it is illegal. -/
def Obligations.OneRowPerWord : Prop :=
  ∀ w : Word, commandRows.filter (selectsRow w) =
    match decode w with
    | .ok (.enc _) => [.enc 0]
    | .ok i => [i]
    | .error _ => []

/-- R55 and R56: an encoded command has RSV 0, OP its number, and MODE its operand, 0 for every command but ENC. -/
def Obligations.EncodedFieldsOfFormatC : Prop :=
  ∀ i : Instr, i.wellFormed = true →
    rsvField (encode i) = 0 ∧ opField (encode i) = i.op ∧
      (modeField (encode i)).toNat = match i with
        | .enc mode => mode
        | _ => 0

/-! ### Steps and the host -/

/-- A host write of `w` to CMD, next in the queue, runs the command `w` decodes to, on the state whose queue is one
shorter; nothing stands around `exec` (R15). The queue is the model's (log 5). -/
def Obligations.StepRunsDecodedCommand : Prop :=
  ∀ (s : State) (w : Word) (i : Instr) (rest : List HostAction),
    s.inputs = .writeReg 0 (w.setWidth 64) :: rest → decode w = .ok i →
      step s = exec i { s with inputs := rest }

/-- R32: every register after reset, as the host reads it; CMD reads 0 in every state. -/
def Obligations.ResetRegisterValues : Prop :=
  (State.reset.regValue 1 = some 0 ∧ State.reset.regValue 2 = some 0 ∧ State.reset.regValue 3 = some 0 ∧
    State.reset.regValue 4 = some 0 ∧ State.reset.regValue 5 = some 0 ∧ State.reset.regValue 6 = some 0 ∧
    State.reset.regValue 7 = some 0 ∧ State.reset.regValue 8 = some 3 ∧ State.reset.regValue 9 = some 0) ∧
  (State.reset.err = 0 ∧ State.reset.flag = false ∧ State.reset.path = 0) ∧ ∀ s : State, s.regValue 0 = some 0

/-- R116: a reset event puts every register at its reset value and leaves no cell written; the cells' contents are free
anew (their key, `epoch`, has moved on, log 4). The configuration and the host's own data stay. -/
def Obligations.ResetEventRestoresRegisters : Prop :=
  ∀ (s : State) (rest : List HostAction), s.inputs = .reset :: rest →
    ∃ t, step s = .next t ∧
      (t.status = 0 ∧ t.width = 0 ∧ t.height = 0 ∧ t.plen = 0 ∧ t.blen = 0 ∧ t.slen = 0 ∧ t.flen = 0 ∧
        t.padf = 3 ∧ t.count = 0) ∧
      (t.pix = [] ∧ t.pay = [] ∧ t.buf = [] ∧ t.sym = [] ∧ t.file = []) ∧
      t.epoch ≠ s.epoch ∧ t.cfg = s.cfg ∧ t.inputs = rest ∧ t.readback = s.readback

/-- R15 and R16 on the host's side: a read of CMD returns 0; a write to STATUS is ignored; a read of STATUS returns it.
None of them has another effect. -/
def Obligations.CmdReadsZeroStatusIsReadOnly : Prop :=
  ∀ (s : State) (rest : List HostAction) (v : BitVec 64),
    (s.inputs = .readReg 0 :: rest → step s = .next { s with inputs := rest, readback := some 0 }) ∧
    (s.inputs = .writeReg 1 v :: rest → step s = .next { s with inputs := rest }) ∧
    (s.inputs = .readReg 1 :: rest →
      step s = .next { s with inputs := rest, readback := some (s.status.setWidth 64) })

/-- R14 and R31: each RW register takes a value that fits it and gives it back; no other register and no cell changes. -/
def Obligations.RwRegistersReadBack : Prop :=
  ∀ (s : State) (reg : Nat) (v : BitVec 64) (rest : List HostAction),
    2 ≤ reg → reg ≤ 9 → (reg ∈ [2, 3, 8] → v.toNat < 2 ^ 32) →
    s.inputs = .writeReg reg v :: .readReg reg :: rest →
      ∃ t, step s = .next t ∧ step t = .next { t with inputs := rest, readback := some v } ∧
        t.inputs = .readReg reg :: rest ∧ t.status = s.status ∧ t.readback = s.readback ∧
        t.cfg = s.cfg ∧ t.epoch = s.epoch ∧
        (t.pix = s.pix ∧ t.pay = s.pay ∧ t.buf = s.buf ∧ t.sym = s.sym ∧ t.file = s.file) ∧
        ∀ r, r ≠ reg → t.regValue r = s.regValue r

/-- R31: a host write of a byte cell below the capacity stores the value there; every other cell of every space, every
register and STATUS keep theirs. -/
def Obligations.HostByteWriteStoresOneCell : Prop :=
  ∀ (s : State) (sp : Space) (a : Nat) (v : Byte) (rest : List HostAction),
    sp ≠ .sym → a < s.cfg.capacity sp → s.inputs = .writeCell sp a v :: rest →
      ∃ t, step s = .next t ∧ t.cellValue sp a = v.setWidth 64 ∧
        (∀ sp' a', (sp', a') ≠ (sp, a) → t.cellValue sp' a' = s.cellValue sp' a') ∧
        t = { s with inputs := rest, pix := t.pix, pay := t.pay, buf := t.buf, file := t.file }

/-- R27: a host write of a SYM cell below the capacity stores the low two bits; every other cell keeps its value. -/
def Obligations.HostSymbolWriteKeepsLowTwoBits : Prop :=
  ∀ (s : State) (a : Nat) (v : Byte) (rest : List HostAction),
    a < s.cfg.symCells → s.inputs = .writeCell .sym a v :: rest →
      ∃ t, step s = .next t ∧ t.symAt a = v.setWidth 2 ∧ (∀ b, b ≠ a → t.symAt b = s.symAt b) ∧
        t = { s with inputs := rest, sym := t.sym }

/-- R48: no read by the host has a side effect: only the queue and the value returned change. A read of a register 0 to 9
returns the register, a read of a cell below the capacity returns the cell (R31). -/
def Obligations.HostReadsHaveNoSideEffect : Prop :=
  ∀ (s : State) (rest : List HostAction),
    (∀ reg, reg ≤ 9 → s.inputs = .readReg reg :: rest → ∃ v, s.regValue reg = some v ∧
      step s = .next { s with inputs := rest, readback := some v }) ∧
    ∀ sp a, a < s.cfg.capacity sp → s.inputs = .readCell sp a :: rest →
      step s = .next { s with inputs := rest, readback := some (s.cellValue sp a) }

/-- R31: a host access to a register number above 9, or to a cell at or above the space's capacity, is refused. -/
def Obligations.HostAccessOutsideIsRefused : Prop :=
  ∀ (s : State) (rest : List HostAction) (reg a : Nat) (sp : Space) (v : BitVec 64) (b : Byte),
    9 < reg → s.cfg.capacity sp ≤ a →
      (s.inputs = .writeReg reg v :: rest → step s = .refused .hostRegisterOutOfRange) ∧
      (s.inputs = .readReg reg :: rest → step s = .refused .hostRegisterOutOfRange) ∧
      (s.inputs = .writeCell sp a b :: rest → step s = .refused .hostCellOutOfRange) ∧
      (s.inputs = .readCell sp a :: rest → step s = .refused .hostCellOutOfRange)

/-- The model's choice, log 7 and log 8: with nothing pending a step changes nothing, and a value of 2^32 or more for
CMD or a 32-bit RW register is refused. -/
def Obligations.IdleAndOverwideWrites : Prop :=
  ∀ (s : State) (rest : List HostAction) (reg : Nat) (v : BitVec 64),
    (s.inputs = [] → step s = .next s) ∧
    (reg ∈ [0, 2, 3, 8] → 2 ^ 32 ≤ v.toNat → s.inputs = .writeReg reg v :: rest →
      step s = .refused .hostValueTooWide)

/-- Each command as the first after reset, for every configuration that meets its constraints (95_test_vectors.md V-RST;
BLDA, and ENC with MODE 1, 2 and 3, by their rules): all results are determined although no cell has been written. -/
def Obligations.FirstCommandAfterReset : Prop :=
  ∀ (cfg : Config) (epoch : Nat) (inputs : List HostAction) (readback : Option (BitVec 64)) (s : State),
    cfg.Ok → s = State.atReset cfg epoch inputs readback →
    (∀ i ∈ [Instr.ser, .des, .lsbw, .lsbr, .lsbx, .parse, .appd], exec i s = .next s) ∧
    exec .valid s = .next { s with status := 6 } ∧ exec (.enc 0) s = .next { s with status := 1 } ∧
    exec (.enc 2) s = .next { s with status := 3 } ∧ exec (.enc 3) s = .next { s with status := 3 } ∧
    exec .dec s = .next { s with status := 2 } ∧
    (∃ t, exec .bldl s = .next t ∧ t = { s with status := 0, buf := t.buf, blen := 12 } ∧
      readCells t.bufAt 0 12 = [0xDE#8, 0xAD#8, 0xC0#8, 0xDE#8, 0#8, 0#8, 0#8, 0#8, 0#8, 0#8, 0#8, 0#8] ∧
      ∀ a, 12 ≤ a → t.bufAt a = s.bufAt a) ∧
    (∃ t, exec .blda s = .next t ∧ t = { s with status := 0, buf := t.buf, blen := 12 } ∧
      readCells t.bufAt 0 12 = [0#8, 0#8, 0#8, 0#8, 0#8, 0#8, 0#8, 0#8, 0xDE#8, 0xC0#8, 0xFE#8, 0x5A#8] ∧
      ∀ a, 12 ≤ a → t.bufAt a = s.bufAt a) ∧
    ∀ i ∈ [Instr.appe, .enc 1], ∃ t, exec i s = .next t ∧ t = { s with status := 0, file := t.file, flen := 12 } ∧
      readCells t.fileAt 0 12 = [0#8, 0#8, 0#8, 0#8, 0#8, 0#8, 0#8, 0#8, 0xDE#8, 0xC0#8, 0xFE#8, 0x5A#8] ∧
      ∀ a, 12 ≤ a → t.fileAt a = s.fileAt a

/-! ### SymbolCodec -/

/-- R71 (a) to (d): the laws of `serialize` and `deserialize`, with the two examples; (e) is in their types. -/
def Obligations.SerializeDeserializeRoundTrip : Prop :=
  (∀ b : Byte, deserialize (serialize [b] 1) = [b]) ∧
  (∀ bs : List Byte, (deserialize (serialize bs 3)).take bs.length = bs) ∧
  (∀ (bs : List Byte) (pf : Nat), 1 ≤ pf →
    ∃ zeros, deserialize (serialize bs pf) = bs ++ List.replicate zeros 0) ∧
  (∀ bs : List Byte, (serialize bs 3).length ≤ 4 * bs.length + 2 ∧ (deserialize (serialize bs 3)).length = bs.length) ∧
  (serialize [0x1B#8] 8).length = 8 ∧ deserialize (serialize [0x1B#8] 8) = [0x1B#8, 0x00#8]

/-- R69, the whole rule of SER: its word, its two errors in order, and on success every symbol of SYM, SLEN and the
frame. -/
def Obligations.SerSerializesBufIntoSym : Prop :=
  decode 0x00000001#32 = .ok .ser ∧ ∀ s : State,
    (s.cfg.bufBytes < s.blen.toNat → exec .ser s = .next { s with status := 6 }) ∧
    (s.blen.toNat ≤ s.cfg.bufBytes → s.padf.toNat = 0 → exec .ser s = .next { s with status := 6 }) ∧
    ∀ total, total = s.padf.toNat * ((4 * s.blen.toNat + s.padf.toNat - 1) / s.padf.toNat) →
      s.blen.toNat ≤ s.cfg.bufBytes → s.padf.toNat ≠ 0 →
      (s.cfg.symCells < total → exec .ser s = .next { s with status := 7 }) ∧
      (s.cfg.Ok → total ≤ s.cfg.symCells → ∃ t, exec .ser s = .next t ∧
        t = { s with status := 0, sym := t.sym, slen := t.slen } ∧ t.slen.toNat = total ∧
        (∀ k j, k < s.blen.toNat → j < 4 →
          t.symAt (4 * k + j) = BitVec.ofNat 2 ((s.bufAt k).toNat / 2 ^ (6 - 2 * j))) ∧
        (∀ i, 4 * s.blen.toNat ≤ i → i < total → t.symAt i = 0) ∧
        ∀ i, total ≤ i → t.symAt i = s.symAt i)

/-- R70, the whole rule of DES: its word, its two errors in order, and on success every byte of BUF, BLEN and the
frame; the last `SLEN mod 4` symbols have no effect. -/
def Obligations.DesDeserializesSymIntoBuf : Prop :=
  decode 0x00000002#32 = .ok .des ∧ ∀ s : State,
    (s.cfg.symCells < s.slen.toNat → exec .des s = .next { s with status := 6 }) ∧
    (s.slen.toNat ≤ s.cfg.symCells → s.cfg.bufBytes < s.slen.toNat / 4 →
      exec .des s = .next { s with status := 7 }) ∧
    (s.slen.toNat ≤ s.cfg.symCells → s.slen.toNat / 4 ≤ s.cfg.bufBytes → ∃ t, exec .des s = .next t ∧
      t = { s with status := 0, buf := t.buf, blen := t.blen } ∧ t.blen.toNat = s.slen.toNat / 4 ∧
      (∀ g, g < s.slen.toNat / 4 →
        t.bufAt g = s.symAt (4 * g) ++ s.symAt (4 * g + 1) ++ s.symAt (4 * g + 2) ++ s.symAt (4 * g + 3)) ∧
      ∀ a, s.slen.toNat / 4 ≤ a → t.bufAt a = s.bufAt a)

/-! ### FrameCodec -/

/-- R73 and R74, the whole rule of BLDL: its word, its two errors in order, and on success the LSB frame of PAY in BUF
byte by byte, BLEN and the frame. -/
def Obligations.BldlBuildsLsbFrame : Prop :=
  decode 0x00000003#32 = .ok .bldl ∧ ∀ s : State,
    (s.cfg.payBytes < s.plen.toNat → exec .bldl s = .next { s with status := 6 }) ∧
    (s.plen.toNat ≤ s.cfg.payBytes → s.cfg.bufBytes < s.plen.toNat + 12 →
      exec .bldl s = .next { s with status := 7 }) ∧
    (s.cfg.Ok → s.plen.toNat ≤ s.cfg.payBytes → s.plen.toNat + 12 ≤ s.cfg.bufBytes → ∃ t, exec .bldl s = .next t ∧
      t = { s with status := 0, buf := t.buf, blen := t.blen } ∧ t.blen.toNat = s.plen.toNat + 12 ∧
      (t.bufAt 0 = 0xDE#8 ∧ t.bufAt 1 = 0xAD#8 ∧ t.bufAt 2 = 0xC0#8 ∧ t.bufAt 3 = 0xDE#8) ∧
      HoldsLength t.bufAt 4 s.plen.toNat ∧
      (∀ k, k < s.plen.toNat → t.bufAt (12 + k) = s.payAt k) ∧
      ∀ a, s.plen.toNat + 12 ≤ a → t.bufAt a = s.bufAt a)

/-- R75 and R76, the whole rule of BLDA: its word, its two errors in order, and on success the append frame of PAY in
BUF byte by byte, BLEN and the frame. -/
def Obligations.BldaBuildsAppendFrame : Prop :=
  decode 0x00000004#32 = .ok .blda ∧ ∀ s : State,
    (s.cfg.payBytes < s.plen.toNat → exec .blda s = .next { s with status := 6 }) ∧
    (s.plen.toNat ≤ s.cfg.payBytes → s.cfg.bufBytes < s.plen.toNat + 12 →
      exec .blda s = .next { s with status := 7 }) ∧
    (s.cfg.Ok → s.plen.toNat ≤ s.cfg.payBytes → s.plen.toNat + 12 ≤ s.cfg.bufBytes → ∃ t, exec .blda s = .next t ∧
      t = { s with status := 0, buf := t.buf, blen := t.blen } ∧ t.blen.toNat = s.plen.toNat + 12 ∧
      (∀ k, k < s.plen.toNat → t.bufAt k = s.payAt k) ∧
      HoldsLength t.bufAt s.plen.toNat s.plen.toNat ∧
      (t.bufAt (s.plen.toNat + 8) = 0xDE#8 ∧ t.bufAt (s.plen.toNat + 9) = 0xC0#8 ∧
        t.bufAt (s.plen.toNat + 10) = 0xFE#8 ∧ t.bufAt (s.plen.toNat + 11) = 0x5A#8) ∧
      ∀ a, s.plen.toNat + 12 ≤ a → t.bufAt a = s.bufAt a)

/-- R77, R78 and R91, the whole rules of the trailer parser, PARSE and APPD: their words, every error in order, "no
match", and the payload returned. Neither writes FILE or FLEN, and the two do the same in every state. -/
def Obligations.ParseAndAppdReadTrailer : Prop :=
  decode 0x00000005#32 = .ok .parse ∧ decode 0x0000000B#32 = .ok .appd ∧
  (∀ s : State, exec .appd s = exec .parse s) ∧
  ∀ i ∈ [Instr.parse, Instr.appd], ∀ s : State,
    (s.cfg.fileBytes < s.flen.toNat → exec i s = .next { s with status := 6 }) ∧
    (s.flen.toNat ≤ s.cfg.fileBytes →
      (¬ s.EndsInAppendMagic → exec i s = .next { s with status := 0 }) ∧
      (s.EndsInAppendMagic → s.flen.toNat < 12 → exec i s = .next { s with status := 5 }) ∧
      ∀ n, s.EndsInAppendMagic → 12 ≤ s.flen.toNat → HoldsLength s.fileAt (s.flen.toNat - 12) n →
        (s.flen.toNat - 12 < n → exec i s = .next { s with status := 5 }) ∧
        (n ≤ s.flen.toNat - 12 → s.cfg.payBytes < n → exec i s = .next { s with status := 7 }) ∧
        (n ≤ s.flen.toNat - 12 → n ≤ s.cfg.payBytes → ∃ t, exec i s = .next t ∧
          ReturnsPayload s t n (fun k => s.fileAt (s.flen.toNat - 12 - n + k)) 0x30))

/-- R79 and R80, the whole rule of VALID: its word, its errors, and FLAG 1 exactly when BUF starts with `DE AD C0 DE`.
Nothing but STATUS is written. -/
def Obligations.ValidComparesLsbMagic : Prop :=
  decode 0x00000006#32 = .ok .valid ∧ ∀ s : State,
    (s.cfg.bufBytes < s.blen.toNat → exec .valid s = .next { s with status := 6 }) ∧
    (s.blen.toNat ≤ s.cfg.bufBytes → s.blen.toNat < 12 → exec .valid s = .next { s with status := 6 }) ∧
    (s.blen.toNat ≤ s.cfg.bufBytes → 12 ≤ s.blen.toNat →
      exec .valid s = .next { s with
        status := if s.bufAt 0 = 0xDE#8 ∧ s.bufAt 1 = 0xAD#8 ∧ s.bufAt 2 = 0xC0#8 ∧ s.bufAt 3 = 0xDE#8
          then 0x10 else 0 })

/-! ### LSBChannel -/

/-- R83 and R84, the whole rule of LSBW: its word, its errors in order, and on success every cell of PIX: the low two
bits of the channels of the first SLEN symbol positions, nothing else. -/
def Obligations.LsbwWritesLowBits : Prop :=
  decode 0x00000007#32 = .ok .lsbw ∧ ∀ s : State,
    (s.cfg.symCells < s.slen.toNat → exec .lsbw s = .next { s with status := 6 }) ∧
    (s.slen.toNat ≤ s.cfg.symCells → s.cfg.pixBytes < s.width.toNat * s.height.toNat * s.cfg.ch →
      exec .lsbw s = .next { s with status := 6 }) ∧
    (s.slen.toNat ≤ s.cfg.symCells → s.width.toNat * s.height.toNat * s.cfg.ch ≤ s.cfg.pixBytes →
      (3 * (s.width.toNat * s.height.toNat) < s.slen.toNat → exec .lsbw s = .next { s with status := 1 }) ∧
      (s.cfg.Ok → s.slen.toNat ≤ 3 * (s.width.toNat * s.height.toNat) → ∃ t, exec .lsbw s = .next t ∧
        t = { s with status := 0, pix := t.pix } ∧
        (∀ i, i < s.slen.toNat → t.pixAt (s.symbolAddr i) =
          (s.pixAt (s.symbolAddr i) &&& 0xFC#8) ||| (s.symAt i).setWidth 8) ∧
        ∀ a, (∀ i, i < s.slen.toNat → s.symbolAddr i ≠ a) → t.pixAt a = s.pixAt a))

/-- R85 and R86, the whole rule of LSBR: its word, its errors in order, and on success the first COUNT symbols of the
carrier in SYM, SLEN and the frame. -/
def Obligations.LsbrReadsFirstSymbols : Prop :=
  decode 0x00000008#32 = .ok .lsbr ∧ ∀ s : State,
    (s.cfg.pixBytes < s.width.toNat * s.height.toNat * s.cfg.ch → exec .lsbr s = .next { s with status := 6 }) ∧
    (s.width.toNat * s.height.toNat * s.cfg.ch ≤ s.cfg.pixBytes →
      (3 * (s.width.toNat * s.height.toNat) < s.count.toNat → exec .lsbr s = .next { s with status := 6 }) ∧
      (s.count.toNat ≤ 3 * (s.width.toNat * s.height.toNat) → s.cfg.symCells < s.count.toNat →
        exec .lsbr s = .next { s with status := 7 }) ∧
      (s.count.toNat ≤ 3 * (s.width.toNat * s.height.toNat) → s.count.toNat ≤ s.cfg.symCells →
        ∃ t, exec .lsbr s = .next t ∧
          t = { s with status := 0, sym := t.sym, slen := t.slen } ∧ t.slen = s.count ∧
          (∀ i, i < s.count.toNat → t.symAt i = s.hiddenSymbol i) ∧
          ∀ i, s.count.toNat ≤ i → t.symAt i = s.symAt i))

/-- R87 and R88, the whole rule of LSBX: its word, its errors in order, "no LSB magic", and the payload returned from
the symbols after the first 48. PIX is never written. -/
def Obligations.LsbxExtractsPayload : Prop :=
  decode 0x00000009#32 = .ok .lsbx ∧ ∀ s : State,
    (s.cfg.pixBytes < s.width.toNat * s.height.toNat * s.cfg.ch → exec .lsbx s = .next { s with status := 6 }) ∧
    (s.width.toNat * s.height.toNat * s.cfg.ch ≤ s.cfg.pixBytes →
      (¬ s.StartsWithLsbMagic → exec .lsbx s = .next { s with status := 0 }) ∧
      ∀ n, s.StartsWithLsbMagic → HoldsLength s.hiddenByte 4 n →
        (3 * (s.width.toNat * s.height.toNat) < 48 + 4 * n → exec .lsbx s = .next { s with status := 5 }) ∧
        (48 + 4 * n ≤ 3 * (s.width.toNat * s.height.toNat) → s.cfg.payBytes < n →
          exec .lsbx s = .next { s with status := 7 }) ∧
        (48 + 4 * n ≤ 3 * (s.width.toNat * s.height.toNat) → n ≤ s.cfg.payBytes →
          ∃ t, exec .lsbx s = .next t ∧ ReturnsPayload s t n (fun k => s.hiddenByte (12 + k)) 0x50))

/-! ### AppendChannel and the top level -/

/-- R90, the whole rule of APPE: its word, its errors in order, and on success the append frame after FILE[0..FLEN)
byte by byte, FLEN advanced, and the frame. -/
def Obligations.AppeAppendsFrame : Prop :=
  decode 0x0000000A#32 = .ok .appe ∧ ∀ s : State,
    (s.cfg.payBytes < s.plen.toNat → exec .appe s = .next { s with status := 6 }) ∧
    (s.plen.toNat ≤ s.cfg.payBytes → s.cfg.fileBytes < s.flen.toNat → exec .appe s = .next { s with status := 6 }) ∧
    (s.plen.toNat ≤ s.cfg.payBytes → s.flen.toNat ≤ s.cfg.fileBytes →
      s.cfg.fileBytes < s.flen.toNat + s.plen.toNat + 12 → exec .appe s = .next { s with status := 7 }) ∧
    (s.cfg.Ok → s.plen.toNat ≤ s.cfg.payBytes → s.flen.toNat + s.plen.toNat + 12 ≤ s.cfg.fileBytes →
      ∃ t, exec .appe s = .next t ∧
        t = { s with status := 0, file := t.file, flen := t.flen } ∧
        t.flen.toNat = s.flen.toNat + s.plen.toNat + 12 ∧
        (∀ k, k < s.plen.toNat → t.fileAt (s.flen.toNat + k) = s.payAt k) ∧
        HoldsLength t.fileAt (s.flen.toNat + s.plen.toNat) s.plen.toNat ∧
        (t.fileAt (t.flen.toNat - 4) = 0xDE#8 ∧ t.fileAt (t.flen.toNat - 3) = 0xC0#8 ∧
          t.fileAt (t.flen.toNat - 2) = 0xFE#8 ∧ t.fileAt (t.flen.toNat - 1) = 0x5A#8) ∧
        ∀ a, a < s.flen.toNat ∨ s.flen.toNat + s.plen.toNat + 12 ≤ a → t.fileAt a = s.fileAt a)

/-- R93, the whole rule of ENC. MODE 2 and 3 raise `InvalidMode` before any other check. MODE 1 is state for state
APPE. MODE 0: its errors in order, and on success every cell of PIX: the magic, the length and the payload in the low
two bits, zero padding symbols, upper six bits and every other cell untouched. -/
def Obligations.EncEmbedsOrAppends : Prop :=
  (∀ m, m < 4 → decode (BitVec.ofNat 32 (0x0C + 256 * m)) = .ok (.enc m)) ∧
  (∀ (m : Nat) (s : State), 2 ≤ m → exec (.enc m) s = .next { s with status := 3 }) ∧
  (∀ s : State, exec (.enc 1) s = exec .appe s) ∧
  ∀ s : State,
    (s.cfg.payBytes < s.plen.toNat → exec (.enc 0) s = .next { s with status := 6 }) ∧
    (s.plen.toNat ≤ s.cfg.payBytes → s.cfg.pixBytes < s.width.toNat * s.height.toNat * s.cfg.ch →
      exec (.enc 0) s = .next { s with status := 6 }) ∧
    (s.plen.toNat ≤ s.cfg.payBytes → s.width.toNat * s.height.toNat * s.cfg.ch ≤ s.cfg.pixBytes →
      (s.width.toNat * s.height.toNat * 6 / 8 < s.plen.toNat + 12 →
        exec (.enc 0) s = .next { s with status := 1 }) ∧
      (s.cfg.Ok → s.plen.toNat + 12 ≤ s.width.toNat * s.height.toNat * 6 / 8 → ∃ t, exec (.enc 0) s = .next t ∧
        t = { s with status := 0, pix := t.pix } ∧
        (t.hiddenByte 0 = 0xDE#8 ∧ t.hiddenByte 1 = 0xAD#8 ∧ t.hiddenByte 2 = 0xC0#8 ∧ t.hiddenByte 3 = 0xDE#8) ∧
        HoldsLength t.hiddenByte 4 s.plen.toNat ∧
        (∀ k, k < s.plen.toNat → t.hiddenByte (12 + k) = s.payAt k) ∧
        (∀ i, 4 * (s.plen.toNat + 12) ≤ i → i < 3 * ((4 * (s.plen.toNat + 12) + 2) / 3) → t.hiddenSymbol i = 0) ∧
        (∀ a, t.pixAt a &&& 0xFC#8 = s.pixAt a &&& 0xFC#8) ∧
        ∀ a, (∀ i, i < 3 * ((4 * (s.plen.toNat + 12) + 2) / 3) → s.symbolAddr i ≠ a) → t.pixAt a = s.pixAt a))

/-- R95 and R96, the whole rule of DEC: its word, the operand errors first, then the trailer, then the pixels, then
`NoHiddenData`; every error and both ways a payload is returned. FILE, FLEN and PIX are never written. -/
def Obligations.DecTriesTrailerThenPixels : Prop :=
  decode 0x0000000D#32 = .ok .dec ∧ ∀ s : State,
    (s.cfg.fileBytes < s.flen.toNat → exec .dec s = .next { s with status := 6 }) ∧
    (s.flen.toNat ≤ s.cfg.fileBytes → s.cfg.pixBytes < s.width.toNat * s.height.toNat * s.cfg.ch →
      exec .dec s = .next { s with status := 6 }) ∧
    (s.flen.toNat ≤ s.cfg.fileBytes → s.width.toNat * s.height.toNat * s.cfg.ch ≤ s.cfg.pixBytes →
      (s.EndsInAppendMagic → s.flen.toNat < 12 → exec .dec s = .next { s with status := 5 }) ∧
      (∀ n, s.EndsInAppendMagic → 12 ≤ s.flen.toNat → HoldsLength s.fileAt (s.flen.toNat - 12) n →
        (s.flen.toNat - 12 < n → exec .dec s = .next { s with status := 5 }) ∧
        (n ≤ s.flen.toNat - 12 → s.cfg.payBytes < n → exec .dec s = .next { s with status := 7 }) ∧
        (n ≤ s.flen.toNat - 12 → n ≤ s.cfg.payBytes → ∃ t, exec .dec s = .next t ∧
          ReturnsPayload s t n (fun k => s.fileAt (s.flen.toNat - 12 - n + k)) 0x30)) ∧
      (¬ s.EndsInAppendMagic → ¬ s.StartsWithLsbMagic → exec .dec s = .next { s with status := 2 }) ∧
      ∀ n, ¬ s.EndsInAppendMagic → s.StartsWithLsbMagic → HoldsLength s.hiddenByte 4 n →
        (3 * (s.width.toNat * s.height.toNat) < 48 + 4 * n → exec .dec s = .next { s with status := 5 }) ∧
        (48 + 4 * n ≤ 3 * (s.width.toNat * s.height.toNat) → s.cfg.payBytes < n →
          exec .dec s = .next { s with status := 7 }) ∧
        (48 + 4 * n ≤ 3 * (s.width.toNat * s.height.toNat) → n ≤ s.cfg.payBytes →
          ∃ t, exec .dec s = .next t ∧ ReturnsPayload s t n (fun k => s.hiddenByte (12 + k)) 0x50))

/-- R82 and R94: the byte form of the capacity rule, which ENC with MODE 0 tests, and the symbol form, which `write`
tests, select the same calls. -/
def Obligations.CapacityFormsAgree : Prop :=
  ∀ npix frameBytes : Nat,
    (3 * ((4 * frameBytes + 2) / 3) ≤ 3 * npix ↔ frameBytes ≤ npix * 6 / 8) ∧
    (padlen frameBytes 3 ≤ 3 * npix ↔ frameBytes ≤ npix * 6 / 8) ∧ npix * 6 / 8 = 3 * npix / 4

/-- R97: when FILE ends in the append magic the pixels are not read: whatever PIX holds, DEC does the same. Where the
operand checks pass, it ends with a payload and PATH 1, with `BadFrame` or with `BufferOverflow`. -/
def Obligations.TrailerBeatsPixels : Prop :=
  ∀ (s t : State) (pixels : List Cell), s.EndsInAppendMagic → exec .dec s = .next t →
    exec .dec { s with pix := pixels } = .next { t with pix := pixels } ∧
      (t.err = 0 → t.flag = true ∧ t.path = 1) ∧
      (s.flen.toNat ≤ s.cfg.fileBytes → s.width.toNat * s.height.toNat * s.cfg.ch ≤ s.cfg.pixBytes →
        t.err ∈ [0#4, 5#4, 7#4])

/-- R98 (a): after a successful ENC with MODE 1, DEC returns the payload ENC was given, whatever the host does to PAY
and PLEN in between, provided the geometry check passes. -/
def Obligations.AppendRoundTrip : Prop :=
  ∀ (s t : State) (pay : List Cell) (plen : Length),
    s.cfg.Ok → exec (.enc 1) s = .next t → t.err = 0 →
    s.width.toNat * s.height.toNat * s.cfg.ch ≤ s.cfg.pixBytes →
      ∃ u, exec .dec { t with pay := pay, plen := plen } = .next u ∧
        u.err = 0 ∧ u.flag = true ∧ u.path = 1 ∧ u.plen = s.plen ∧
        ∀ k, k < s.plen.toNat → u.payAt k = s.payAt k

/-- R98 (b): after a successful ENC with MODE 0, if FILE does not end in the append magic, DEC returns the payload ENC
was given, whatever the host does to PAY and PLEN in between. -/
def Obligations.LsbRoundTrip : Prop :=
  ∀ (s t : State) (pay : List Cell) (plen : Length),
    s.cfg.Ok → exec (.enc 0) s = .next t → t.err = 0 →
    s.flen.toNat ≤ s.cfg.fileBytes → ¬ s.EndsInAppendMagic →
      ∃ u, exec .dec { t with pay := pay, plen := plen } = .next u ∧
        u.err = 0 ∧ u.flag = true ∧ u.path = 2 ∧ u.plen = s.plen ∧
        ∀ k, k < s.plen.toNat → u.payAt k = s.payAt k

/-- The same round trip one stage at a time, as 10_state.md R29 says the primitive commands show it: BLDL, SER with
PADF 3, LSBW, then LSBX returns the payload. -/
def Obligations.PipelineRoundTrip : Prop :=
  ∀ s s1 s2 s3 : State, s.cfg.Ok → s.padf = 3 →
    exec .bldl s = .next s1 → s1.err = 0 → exec .ser s1 = .next s2 → s2.err = 0 →
    exec .lsbw s2 = .next s3 → s3.err = 0 →
      ∃ u, exec .lsbx s3 = .next u ∧ u.err = 0 ∧ u.flag = true ∧ u.path = 2 ∧ u.plen = s.plen ∧
        ∀ k, k < s.plen.toNat → u.payAt k = s.payAt k

/-! ### Rules over all commands -/

/-- R108: a command that ends with an error, and an illegal word, change STATUS only: to the code, with FLAG 0 and
PATH 0. -/
def Obligations.FailingCommandChangesOnlyStatus : Prop :=
  (∀ (i : Instr) (s t : State), exec i s = .next t → t.err ≠ 0 → t = { s with status := t.err.setWidth 32 }) ∧
  ∀ (w : Word) (s t : State), s.runWord w = .next t → t.err ≠ 0 → t = { s with status := t.err.setWidth 32 }

/-- R30: what each command may write; everything else is unchanged, and PAY and PLEN of a decoder too when it returns
no payload. -/
def Obligations.CommandsWriteOnlyTheirColumns : Prop :=
  ∀ (i : Instr) (s t : State), exec i s = .next t →
    WritesAtMost i s t ∧
      (i ∈ [Instr.parse, Instr.appd, Instr.lsbx, Instr.dec] → t.flag = false → t.pay = s.pay ∧ t.plen = s.plen)

/-- R104: a well-formed command ends with ERR 0 or one of its marked codes, and each marked code is reached from a state
that meets the invariant. -/
def Obligations.ErrorMatrix : Prop :=
  ∀ i : Instr, i.wellFormed = true →
    (∀ s t : State, exec i s = .next t → t.err = 0 ∨ t.err ∈ markedErrors i) ∧
      ∀ e ∈ markedErrors i, ∃ s t : State, s.Inv ∧ exec i s = .next t ∧ t.err = e

/-- R16 and R115: every command leaves STATUS at a legal value: bits 31:7 zero, ERR at most 8 and never 4, FLAG 0 when
ERR is not 0, PATH 0 when FLAG is 0 and never 3. -/
def Obligations.EveryCommandLeavesLegalStatus : Prop :=
  ∀ (i : Instr) (s t : State), exec i s = .next t → LegalStatus t.status

/-- R23: no command reads STATUS. -/
def Obligations.NoCommandReadsStatus : Prop :=
  ∀ (i : Instr) (s : State) (w : Word), exec i { s with status := w } = exec i s

/-- R110 and R131: every command ends, in every state, and leaves the CORE ready for the next; no command changes what
is pending or the configuration. -/
def Obligations.EveryCommandEnds : Prop :=
  ∀ (i : Instr) (s : State), ∃ t, exec i s = .next t ∧ t.inputs = s.inputs ∧ t.cfg = s.cfg ∧ t.epoch = s.epoch ∧
    t.readback = s.readback

/-- R26, R27 and R29: LSBX, APPE, ENC and DEC neither read nor write BUF, SYM, BLEN, SLEN, PADF and COUNT. -/
def Obligations.CompositesIgnoreBuffers : Prop :=
  ∀ (i : Instr) (s t : State) (buf : List Cell) (sym : List (Nat × Symbol)) (blen slen count : Length) (padf : Word),
    (i ∈ [Instr.lsbx, Instr.appe, Instr.dec] ∨ ∃ m, i = .enc m) → exec i s = .next t →
      exec i { s with buf := buf, sym := sym, blen := blen, slen := slen, padf := padf, count := count } =
        .next { t with buf := buf, sym := sym, blen := blen, slen := slen, padf := padf, count := count }

/-- R130: WIDTH and HEIGHT matter only through their product. -/
def Obligations.OnlyThePixelCountMatters : Prop :=
  ∀ (i : Instr) (s t : State) (w h : Word), w.toNat * h.toNat = s.width.toNat * s.height.toNat →
    exec i s = .next t → exec i { s with width := w, height := h } = .next { t with width := w, height := h }

/-- R24, R40 and R47: no command changes the upper six bits of any PIX cell, nor any bit of a channel 3 or up. -/
def Obligations.UpperBitsAndAlphaUntouched : Prop :=
  ∀ (i : Instr) (s t : State), s.cfg.Ok → exec i s = .next t →
    (∀ a, t.pixAt a &&& 0xFC#8 = s.pixAt a &&& 0xFC#8) ∧
      ∀ p c, 3 ≤ c → c < s.cfg.ch → t.pixAt (p * s.cfg.ch + c) = s.pixAt (p * s.cfg.ch + c)

/-- R48: every command but APPE and ENC with MODE 1 is idempotent: issued again at once it changes nothing. -/
def Obligations.ReissueIsIdempotent : Prop :=
  ∀ (i : Instr) (s t : State), s.Inv → i ≠ .appe → i ≠ .enc 1 → exec i s = .next t → exec i t = .next t

/-- R20 and R48: FLEN advances by PLEN + 12 when APPE or ENC with MODE 1 succeeds, so those two are not idempotent; no
other command, and no failing one, changes it. -/
def Obligations.OnlyAppendAdvancesFlen : Prop :=
  ∀ (i : Instr) (s t : State), s.cfg.Ok → exec i s = .next t →
    t.flen.toNat = if i ∈ [Instr.appe, .enc 1] ∧ t.err = 0 then s.flen.toNat + s.plen.toNat + 12 else s.flen.toNat

/-- The invariant: a step keeps the configuration's constraints, the canonical form of all five spaces, every listed
cell below its capacity (R50: no command forms an address outside its space) and a legal STATUS. -/
def Obligations.StepKeepsInvariant : Prop :=
  ∀ s t : State, s.Inv → step s = .next t → t.Inv ∧ t.cfg = s.cfg

/-- The invariant holds at reset. The capacities of the reset state are the model's choice (log 1). -/
def Obligations.ResetMeetsInvariant : Prop := State.reset.Inv

/-- R110: nothing leaves the CORE stuck: from any state that meets the invariant, a session of host actions inside the
architecture runs for any number of steps, and the invariant holds at its end. The queue is the model's (log 5), and so is
the idle step once it is empty (log 7). -/
def Obligations.LegalSessionsNeverStop : Prop :=
  ∀ (k : Nat) (s : State), s.Inv → s.InputsLegal → ∃ t, Core.run core k s = .next t ∧ t.Inv ∧ t.InputsLegal

/-- Every word the host can write to CMD gives a next state, so no command word stops the machine (R15, R59, R110). -/
def Obligations.EveryCmdWriteIsOneStep : Prop :=
  ∀ (s : State) (w : Word) (rest : List HostAction), s.inputs = .writeReg 0 (w.setWidth 64) :: rest →
    ∃ t, step s = .next t ∧ t.inputs = rest ∧ LegalStatus t.status
end

