-- ==== Sys2Proof/Laws/Memory.lean ====
section
/-! SUPPORT. What a space's operations do: reading after a write, the form and the capacity kept, and that two spaces in
that form with the same cells are equal. -/

namespace Sys2Proof.Machine.Memory

variable {w : Nat}

theorem lookup_append (l m : List (Nat × BitVec w)) (a : Nat) :
    lookup (l ++ m) a = (lookup l a).or (lookup m a) := by
  induction l with
  | nil => simp [lookup]
  | cons x l ih => obtain ⟨b, v⟩ := x; by_cases h : b = a <;> simp [lookup, h, ih]

theorem lookup_filter (p : Nat → Bool) (m : List (Nat × BitVec w)) (a : Nat) :
    lookup (m.filter fun x => p x.1) a = if p a then lookup m a else none := by
  induction m with
  | nil => simp [lookup]
  | cons x m ih =>
    obtain ⟨b, v⟩ := x
    by_cases hb : p b <;> by_cases h : b = a <;> simp_all [lookup]

theorem lookup_cellsFrom (a b : Nat) (vs : List (BitVec w)) :
    lookup (cellsFrom a vs) b = if a ≤ b then vs[b - a]? else none := by
  induction vs generalizing a with
  | nil => simp [cellsFrom, lookup]
  | cons v vs ih =>
    by_cases h : a = b
    · simp [cellsFrom, lookup, h]
    · by_cases hab : a ≤ b
      · obtain ⟨k, rfl⟩ : ∃ k, b = a + 1 + k := ⟨b - (a + 1), by omega⟩
        have : a + 1 + k - a = k + 1 := by omega
        simp [cellsFrom, lookup, h, ih, hab, this]
      · simp [cellsFrom, lookup, h, ih, hab, show ¬ a + 1 ≤ b by omega]

/-- What every address holds after a write, whatever form the list has. -/
theorem lookup_write (m : List (Nat × BitVec w)) (a b : Nat) (vs : List (BitVec w)) :
    lookup (write m a vs) b = if a ≤ b ∧ b < a + vs.length then vs[b - a]? else lookup m b := by
  rw [write, lookup_append, lookup_append, lookup_cellsFrom,
    lookup_filter (fun x => decide (x < a)), lookup_filter (fun x => decide (a + vs.length ≤ x))]
  by_cases h1 : b < a
  · have h2 : ¬ a ≤ b := by omega
    have h3 : ¬ a + vs.length ≤ b := by omega
    simp [h1, h2, h3]
  · by_cases h2 : b < a + vs.length
    · have h3 : ¬ a + vs.length ≤ b := by omega
      simp [h1, h2, h3, Nat.le_of_not_lt h1]
    · have h3 : vs.length ≤ b - a := by omega
      simp [h1, h2, Nat.le_of_not_lt h1, Nat.le_of_not_lt h2, List.getElem?_eq_none h3]

/-- A cell of the written range reads as the value written there. -/
theorem read_write_of_mem (fresh : Nat → BitVec w) (m : List (Nat × BitVec w)) (a k : Nat) (vs : List (BitVec w))
    (h : k < vs.length) : read fresh (write m a vs) (a + k) = vs[k] := by
  have h2 : vs[a + k - a]? = some vs[k] := by rw [Nat.add_sub_cancel_left]; exact List.getElem?_eq_getElem h
  simp [read, lookup_write, h]

/-- A cell outside the written range keeps its value. -/
theorem read_write_of_not_mem (fresh : Nat → BitVec w) (m : List (Nat × BitVec w)) (a b : Nat) (vs : List (BitVec w))
    (h : b < a ∨ a + vs.length ≤ b) : read fresh (write m a vs) b = read fresh m b := by
  have : ¬ (a ≤ b ∧ b < a + vs.length) := by omega
  simp [read, lookup_write, this]

/-- A single cell written reads as its value. -/
@[simp] theorem read_write_self (fresh : Nat → BitVec w) (m : List (Nat × BitVec w)) (a : Nat) (v : BitVec w) :
    read fresh (write m a [v]) a = v := by
  simpa using read_write_of_mem fresh m a 0 [v] (by simp)

/-- A single cell written leaves every other cell alone. -/
theorem read_write_ne (fresh : Nat → BitVec w) (m : List (Nat × BitVec w)) {a b : Nat} (v : BitVec w) (h : b ≠ a) :
    read fresh (write m a [v]) b = read fresh m b :=
  read_write_of_not_mem fresh m a b [v] (by simp; omega)

/-- The addresses of consecutive cells. -/
theorem cellsFrom_fst_bounds {a : Nat} {vs : List (BitVec w)} {x : Nat × BitVec w} (h : x ∈ cellsFrom a vs) :
    a ≤ x.1 ∧ x.1 < a + vs.length := by
  induction vs generalizing a with
  | nil => simp [cellsFrom] at h
  | cons v vs ih =>
    rcases List.mem_cons.1 h with rfl | h
    · simp
    · have := ih h; simp; omega

theorem wf_cellsFrom (a : Nat) (vs : List (BitVec w)) : wf (cellsFrom a vs) := by
  induction vs generalizing a with
  | nil => exact List.Pairwise.nil
  | cons v vs ih =>
    refine List.Pairwise.cons (fun x hx => ?_) (ih (a + 1))
    have := cellsFrom_fst_bounds hx
    show a < x.1
    omega

/-- A write keeps the form. -/
theorem wf_write {m : List (Nat × BitVec w)} (h : wf m) (a : Nat) (vs : List (BitVec w)) : wf (write m a vs) := by
  refine List.pairwise_append.2 ⟨List.pairwise_append.2 ⟨h.filter _, wf_cellsFrom a vs, ?_⟩, h.filter _, ?_⟩
  · intro x hx y hy
    have h1 : x.1 < a := by simpa using (List.mem_filter.1 hx).2
    have h2 := cellsFrom_fst_bounds hy
    omega
  · intro x hx y hy
    have h1 : a + vs.length ≤ y.1 := by simpa using (List.mem_filter.1 hy).2
    rcases List.mem_append.1 hx with hx | hx
    · have h2 : x.1 < a := by simpa using (List.mem_filter.1 hx).2
      omega
    · have h2 := cellsFrom_fst_bounds hx
      omega

/-- A write below the capacity keeps every listed cell below it. -/
theorem within_write {m : List (Nat × BitVec w)} {capacity : Nat} (h : within capacity m) {a : Nat}
    {vs : List (BitVec w)} (ha : a + vs.length ≤ capacity) : within capacity (write m a vs) := by
  intro x hx
  rcases List.mem_append.1 hx with hx | hx
  · rcases List.mem_append.1 hx with hx | hx
    · exact h x (List.mem_filter.1 hx).1
    · have := cellsFrom_fst_bounds hx; omega
  · exact h x (List.mem_filter.1 hx).1

theorem lookup_eq_none_of_lt {m : List (Nat × BitVec w)} {a : Nat} (h : ∀ x ∈ m, a < x.1) : lookup m a = none := by
  induction m with
  | nil => rfl
  | cons x m ih =>
    obtain ⟨b, v⟩ := x
    have hb : a < b := h (b, v) (by simp)
    have hba : b ≠ a := by omega
    simpa [lookup, hba] using ih fun y hy => h y (by simp [hy])

/-- Two spaces in their form that list the same cells are the same list: equal memories are equal data. -/
theorem ext_of_wf {l m : List (Nat × BitVec w)} (hl : wf l) (hm : wf m) (h : ∀ a, lookup l a = lookup m a) : l = m := by
  induction l generalizing m with
  | nil =>
    cases m with
    | nil => rfl
    | cons y m => obtain ⟨b, v⟩ := y; simpa [lookup] using h b
  | cons x l ih =>
    obtain ⟨a, u⟩ := x
    have hal : ∀ x ∈ l, a < x.1 := (List.pairwise_cons.1 hl).1
    cases m with
    | nil => simpa [lookup] using h a
    | cons y m =>
      obtain ⟨b, v⟩ := y
      have hbm : ∀ x ∈ m, b < x.1 := (List.pairwise_cons.1 hm).1
      have ha := h a
      have hb := h b
      have hab : a = b := by
        rcases Nat.lt_trichotomy a b with hlt | heq | hgt
        · have : lookup ((b, v) :: m) a = none := lookup_eq_none_of_lt (by
            intro x hx
            rcases List.mem_cons.1 hx with rfl | hx
            · exact hlt
            · exact Nat.lt_trans hlt (hbm x hx))
          rw [this] at ha
          simp [lookup] at ha
        · exact heq
        · have : lookup ((a, u) :: l) b = none := lookup_eq_none_of_lt (by
            intro x hx
            rcases List.mem_cons.1 hx with rfl | hx
            · exact hgt
            · exact Nat.lt_trans hgt (hal x hx))
          rw [this] at hb
          simp [lookup] at hb
      subst hab
      have huv : u = v := by simpa [lookup] using ha
      subst huv
      have hlm : l = m := by
        refine ih (List.pairwise_cons.1 hl).2 (List.pairwise_cons.1 hm).2 fun c => ?_
        by_cases hc : a = c
        · subst hc
          rw [lookup_eq_none_of_lt hal, lookup_eq_none_of_lt hbm]
        · simpa [lookup, hc] using h c
      rw [hlm]

/-- Writing a range again writes nothing new. -/
theorem write_write_self (m : List (Nat × BitVec w)) (a : Nat) (vs : List (BitVec w)) :
    write (write m a vs) a vs = write m a vs := by
  have hlo : (write m a vs).filter (fun x => decide (x.1 < a)) = m.filter (fun x => decide (x.1 < a)) := by
    have h1 : (cellsFrom a vs).filter (fun x => decide (x.1 < a)) = [] := by
      refine List.filter_eq_nil_iff.2 fun x hx => ?_
      have := cellsFrom_fst_bounds hx
      simp; omega
    have h2 : (m.filter (fun x => decide (a + vs.length ≤ x.1))).filter (fun x => decide (x.1 < a)) = [] := by
      refine List.filter_eq_nil_iff.2 fun x hx => ?_
      have : a + vs.length ≤ x.1 := by simpa using (List.mem_filter.1 hx).2
      simp; omega
    simp only [write, List.filter_append, h1, h2, List.append_nil]
    simp [List.filter_filter]
  have hhi : (write m a vs).filter (fun x => decide (a + vs.length ≤ x.1)) =
      m.filter (fun x => decide (a + vs.length ≤ x.1)) := by
    have h1 : (cellsFrom a vs).filter (fun x => decide (a + vs.length ≤ x.1)) = [] := by
      refine List.filter_eq_nil_iff.2 fun x hx => ?_
      have := cellsFrom_fst_bounds hx
      simp; omega
    have h2 : (m.filter (fun x => decide (x.1 < a))).filter (fun x => decide (a + vs.length ≤ x.1)) = [] := by
      refine List.filter_eq_nil_iff.2 fun x hx => ?_
      have : x.1 < a := by simpa using (List.mem_filter.1 hx).2
      simp; omega
    simp only [write, List.filter_append, h1, h2, List.nil_append]
    simp [List.filter_filter]
  rw [write, hlo, hhi, write]

/-- An empty write changes no cell of a space in its form. -/
theorem write_nil {m : List (Nat × BitVec w)} (h : wf m) (a : Nat) : write m a [] = m :=
  ext_of_wf (wf_write h a []) h fun b => by
    simp [lookup_write]

end Sys2Proof.Machine.Memory

namespace Sys2Proof.Machine

@[simp] theorem length_readCells {α : Type} (cell : Nat → α) (a n : Nat) : (readCells cell a n).length = n := by
  simp [readCells]

@[simp] theorem getElem_readCells {α : Type} (cell : Nat → α) (a n k : Nat) (h : k < (readCells cell a n).length) :
    (readCells cell a n)[k] = cell (a + k) := by
  simp [readCells]

/-- Two ranges of the same length with the same cells are the same sequence. -/
theorem readCells_congr {α : Type} {c d : Nat → α} {a b n : Nat} (h : ∀ k, k < n → c (a + k) = d (b + k)) :
    readCells c a n = readCells d b n :=
  List.ext_getElem (by simp) fun k h1 _ => by
    have hk : k < n := by simpa using h1
    simpa using h k hk

theorem readCells_drop {α : Type} (cell : Nat → α) (a n k : Nat) :
    (readCells cell a n).drop k = readCells cell (a + k) (n - k) :=
  List.ext_getElem (by simp) fun i h1 _ => by simp [Nat.add_assoc]

theorem readCells_take {α : Type} (cell : Nat → α) (a n k : Nat) :
    (readCells cell a n).take k = readCells cell a (min k n) :=
  List.ext_getElem (by simp) fun i h1 _ => by simp

end Sys2Proof.Machine
end

