-- ==== Sys2Proof/Laws/Bytes.lean ====
section
/-! SUPPORT. What the byte formats and the bit fields of Operands.lean do, one lemma each. -/

namespace Sys2Proof.Machine

/-! ### Lengths and magics -/

@[simp] theorem length_be (v n : Nat) : (be v n).length = n := by simp [be]

@[simp] theorem length_le (v n : Nat) : (le v n).length = n := by simp [le]

theorem getElem?_be (v n k : Nat) (h : k < n) : (be v n)[k]? = some (BitVec.ofNat 8 (v / 2 ^ (8 * (n - 1 - k)))) := by
  simp [be, h, Nat.shiftRight_eq_div_pow]

theorem be_magicLsb : be magicLsb 4 = [0xDE#8, 0xAD#8, 0xC0#8, 0xDE#8] := by decide

theorem le_magicApp : le magicApp 4 = [0xDE#8, 0xC0#8, 0xFE#8, 0x5A#8] := by decide

theorem readCells_four {α : Type} (c : Nat → α) (a : Nat) : readCells c a 4 = [c a, c (a + 1), c (a + 2), c (a + 3)] := by
  simp [readCells, List.range_succ]

theorem readCells_eight {α : Type} (c : Nat → α) (a : Nat) :
    readCells c a 8 = [c a, c (a + 1), c (a + 2), c (a + 3), c (a + 4), c (a + 5), c (a + 6), c (a + 7)] := by
  simp [readCells, List.range_succ]

/-- Four bytes are the LSB magic exactly when they are `DE AD C0 DE` (42_framecodec.md R79). -/
theorem fromBe_eq_magicLsb (a b c d : Byte) :
    fromBe [a, b, c, d] = magicLsb ↔ a = 0xDE#8 ∧ b = 0xAD#8 ∧ c = 0xC0#8 ∧ d = 0xDE#8 := by
  have ha := a.isLt
  have hb := b.isLt
  have hc := c.isLt
  have hd := d.isLt
  simp only [fromBe, magicLsb, List.foldl_cons, List.foldl_nil, BitVec.toNat_eq, BitVec.toNat_ofNat]
  omega

/-- Four bytes are the append magic exactly when they are `DE C0 FE 5A` (42_framecodec.md R77). -/
theorem fromLe_eq_magicApp (a b c d : Byte) :
    fromLe [a, b, c, d] = magicApp ↔ a = 0xDE#8 ∧ b = 0xC0#8 ∧ c = 0xFE#8 ∧ d = 0x5A#8 := by
  have ha := a.isLt
  have hb := b.isLt
  have hc := c.isLt
  have hd := d.isLt
  simp only [fromLe, magicApp, BitVec.toNat_eq, BitVec.toNat_ofNat]
  omega

/-- Eight cells hold exactly one big-endian length: the one `from_be` gives (00_scope.md R11). -/
theorem holdsLength_iff (c : Nat → Byte) (a n : Nat) : HoldsLength c a n ↔ fromBe (readCells c a 8) = n := by
  have h0 := (c a).isLt
  have h1 := (c (a + 1)).isLt
  have h2 := (c (a + 2)).isLt
  have h3 := (c (a + 3)).isLt
  have h4 := (c (a + 4)).isLt
  have h5 := (c (a + 5)).isLt
  have h6 := (c (a + 6)).isLt
  have h7 := (c (a + 7)).isLt
  rw [readCells_eight]
  simp only [fromBe, List.foldl_cons, List.foldl_nil]
  constructor
  · rintro ⟨hn, h⟩
    have e0 := congrArg BitVec.toNat (h 0 (by omega))
    have e1 := congrArg BitVec.toNat (h 1 (by omega))
    have e2 := congrArg BitVec.toNat (h 2 (by omega))
    have e3 := congrArg BitVec.toNat (h 3 (by omega))
    have e4 := congrArg BitVec.toNat (h 4 (by omega))
    have e5 := congrArg BitVec.toNat (h 5 (by omega))
    have e6 := congrArg BitVec.toNat (h 6 (by omega))
    have e7 := congrArg BitVec.toNat (h 7 (by omega))
    norm_num at e0 e1 e2 e3 e4 e5 e6 e7 hn
    omega
  · rintro rfl
    refine ⟨by omega, fun k hk => ?_⟩
    rw [BitVec.toNat_eq, BitVec.toNat_ofNat]
    interval_cases k <;> norm_num <;> omega

/-- A built frame's length field is the length (42_framecodec.md R73, R75). -/
theorem holdsLength_of_be {c : Nat → Byte} {a v : Nat} (hv : v < 2 ^ 64)
    (h : ∀ k, k < 8 → some (c (a + k)) = (be v 8)[k]?) : HoldsLength c a v :=
  ⟨hv, fun k hk => by simpa [getElem?_be v 8 k hk] using h k hk⟩

/-! ### Symbols and channels -/

theorem byteOf_eq_append : ∀ s0 s1 s2 s3 : Symbol, byteOf s0 s1 s2 s3 = s0 ++ s1 ++ s2 ++ s3 := by decide +kernel

theorem byteOf_symbols : ∀ b : Byte,
    byteOf (b.extractLsb' 6 2) (b.extractLsb' 4 2) (b.extractLsb' 2 2) (b.extractLsb' 0 2) = b := by decide +kernel

theorem symbol_eq_ofNat : ∀ b : Byte, ∀ j, j < 4 →
    b.extractLsb' (6 - 2 * j) 2 = BitVec.ofNat 2 (b.toNat / 2 ^ (6 - 2 * j)) := by decide +kernel

@[simp] theorem lowSymbol_insertSymbol : ∀ (c : Byte) (v : Symbol), lowSymbol (insertSymbol c v) = v := by
  decide +kernel

@[simp] theorem insertSymbol_insertSymbol : ∀ (c : Byte) (u v : Symbol),
    insertSymbol (insertSymbol c u) v = insertSymbol c v := by decide +kernel

/-- The upper six bits survive (20_memory.md R47). -/
@[simp] theorem upperBits_insertSymbol : ∀ (c : Byte) (v : Symbol), insertSymbol c v &&& 0xFC#8 = c &&& 0xFC#8 := by
  decide +kernel

/-! ### Addresses and lengths -/

/-- Distinct symbol positions are distinct channels, as a pixel stores at least three (20_memory.md R41). -/
theorem rasterAddr_injective {ch i j : Nat} (hch : 3 ≤ ch) (h : rasterAddr ch i = rasterAddr ch j) : i = j := by
  have hi : i % 3 < ch := by omega
  have hj : j % 3 < ch := by omega
  simp only [rasterAddr, pixelAddr] at h
  have hd : i / 3 = j / 3 := by
    have h1 : (i / 3 * ch + i % 3) / ch = i / 3 := by
      rw [Nat.add_comm, Nat.add_mul_div_right _ _ (by omega), Nat.div_eq_of_lt hi, Nat.zero_add]
    have h2 : (j / 3 * ch + j % 3) / ch = j / 3 := by
      rw [Nat.add_comm, Nat.add_mul_div_right _ _ (by omega), Nat.div_eq_of_lt hj, Nat.zero_add]
    rw [← h1, ← h2, h]
  rw [hd] at h
  omega

/-- A symbol position of the carrier is a cell of the grid (45_toplevel.md R100). -/
theorem rasterAddr_lt {ch i npix : Nat} (hch : 3 ≤ ch) (h : i < 3 * npix) : rasterAddr ch i < npix * ch := by
  have h1 : i / 3 + 1 ≤ npix := by omega
  have h2 : (i / 3 + 1) * ch ≤ npix * ch := Nat.mul_le_mul_right ch h1
  simp only [rasterAddr, pixelAddr]
  rw [Nat.add_mul] at h2
  omega

/-- A channel from 3 up is no symbol position (10_state.md R24). -/
theorem rasterAddr_ne_alpha {ch p c : Nat} (h3 : 3 ≤ c) (hc : c < ch) (i : Nat) : rasterAddr ch i ≠ p * ch + c := by
  intro h
  have hch : 3 ≤ ch := by omega
  have hi : i % 3 < ch := by omega
  simp only [rasterAddr, pixelAddr] at h
  have h1 : (i / 3 * ch + i % 3) % ch = i % 3 := by
    rw [Nat.add_comm, Nat.add_mul_mod_self_right, Nat.mod_eq_of_lt hi]
  have h2 : (p * ch + c) % ch = c := by
    rw [Nat.add_comm, Nat.add_mul_mod_self_right, Nat.mod_eq_of_lt hc]
  rw [h, h2] at h1
  omega

/-- `padlen` is the least multiple of the factor that holds the symbols: `pf * ceil(4n / pf)` (41_symbolcodec.md R67). -/
theorem padlen_eq_ceil (n pf : Nat) (h : 0 < pf) : padlen n pf = pf * ((4 * n + pf - 1) / pf) := by
  have hdm := Nat.div_add_mod (4 * n) pf
  have hlt := Nat.mod_lt (4 * n) h
  generalize hq : 4 * n / pf = q at hdm
  generalize hr : 4 * n % pf = r at hdm hlt
  have hx : 4 * n = pf * q + r := hdm.symm
  unfold padlen
  rw [hr]
  split
  · next h0 =>
    have : (4 * n + pf - 1) / pf = q := by
      rw [hx, h0, Nat.add_zero, Nat.add_sub_assoc h, Nat.mul_add_div h, Nat.div_eq_of_lt (by omega), Nat.add_zero]
    rw [this, hx, h0, Nat.add_zero]
  · next h0 =>
    have : (4 * n + pf - 1) / pf = q + 1 := by
      have : 4 * n + pf - 1 = pf * (q + 1) + (r - 1) := by rw [Nat.mul_add]; omega
      rw [this, Nat.mul_add_div h, Nat.div_eq_of_lt (by omega), Nat.add_zero]
    rw [this, Nat.mul_add]
    omega

theorem padCount_add (n pf : Nat) (h : 0 < pf) : 4 * n + padCount n pf = padlen n pf := by
  have hlt := Nat.mod_lt (4 * n) h
  have hle := Nat.mod_le (4 * n) pf
  unfold padCount padlen
  split
  · next h0 => simp [h0]
  · next h0 => rw [Nat.mod_eq_of_lt (by omega)]; omega

theorem le_padlen (n pf : Nat) (h : 0 < pf) : 4 * n ≤ padlen n pf := by
  have := padCount_add n pf h
  omega

end Sys2Proof.Machine
end

