-- ==== Sys2Proof/Laws/State.lean ====
section
/-! SUPPORT. The named updates of State, one lemma per field: what each writes and what each leaves alone. -/

namespace Sys2Proof.Machine.State


/-! ### `putSymbols` -/

section
variable (s : State) (ss : List Symbol)

@[simp] theorem putSymbols_status : (s.putSymbols ss).status = s.status := rfl
@[simp] theorem putSymbols_width : (s.putSymbols ss).width = s.width := rfl
@[simp] theorem putSymbols_height : (s.putSymbols ss).height = s.height := rfl
@[simp] theorem putSymbols_plen : (s.putSymbols ss).plen = s.plen := rfl
@[simp] theorem putSymbols_blen : (s.putSymbols ss).blen = s.blen := rfl
@[simp] theorem putSymbols_slen : (s.putSymbols ss).slen = BitVec.ofNat 64 ss.length := rfl
@[simp] theorem putSymbols_flen : (s.putSymbols ss).flen = s.flen := rfl
@[simp] theorem putSymbols_padf : (s.putSymbols ss).padf = s.padf := rfl
@[simp] theorem putSymbols_count : (s.putSymbols ss).count = s.count := rfl
@[simp] theorem putSymbols_pix : (s.putSymbols ss).pix = s.pix := rfl
@[simp] theorem putSymbols_pay : (s.putSymbols ss).pay = s.pay := rfl
@[simp] theorem putSymbols_buf : (s.putSymbols ss).buf = s.buf := rfl
@[simp] theorem putSymbols_sym : (s.putSymbols ss).sym = Memory.write s.sym 0 ss := rfl
@[simp] theorem putSymbols_file : (s.putSymbols ss).file = s.file := rfl
@[simp] theorem putSymbols_cfg : (s.putSymbols ss).cfg = s.cfg := rfl
@[simp] theorem putSymbols_epoch : (s.putSymbols ss).epoch = s.epoch := rfl
@[simp] theorem putSymbols_inputs : (s.putSymbols ss).inputs = s.inputs := rfl
@[simp] theorem putSymbols_readback : (s.putSymbols ss).readback = s.readback := rfl
@[simp] theorem putSymbols_pixAt : (s.putSymbols ss).pixAt = s.pixAt := rfl
@[simp] theorem putSymbols_payAt : (s.putSymbols ss).payAt = s.payAt := rfl
@[simp] theorem putSymbols_bufAt : (s.putSymbols ss).bufAt = s.bufAt := rfl
@[simp] theorem putSymbols_fileAt : (s.putSymbols ss).fileAt = s.fileAt := rfl

end

/-! ### `putBytes` -/

section
variable (s : State) (bs : List Byte)

@[simp] theorem putBytes_status : (s.putBytes bs).status = s.status := rfl
@[simp] theorem putBytes_width : (s.putBytes bs).width = s.width := rfl
@[simp] theorem putBytes_height : (s.putBytes bs).height = s.height := rfl
@[simp] theorem putBytes_plen : (s.putBytes bs).plen = s.plen := rfl
@[simp] theorem putBytes_blen : (s.putBytes bs).blen = BitVec.ofNat 64 bs.length := rfl
@[simp] theorem putBytes_slen : (s.putBytes bs).slen = s.slen := rfl
@[simp] theorem putBytes_flen : (s.putBytes bs).flen = s.flen := rfl
@[simp] theorem putBytes_padf : (s.putBytes bs).padf = s.padf := rfl
@[simp] theorem putBytes_count : (s.putBytes bs).count = s.count := rfl
@[simp] theorem putBytes_pix : (s.putBytes bs).pix = s.pix := rfl
@[simp] theorem putBytes_pay : (s.putBytes bs).pay = s.pay := rfl
@[simp] theorem putBytes_buf : (s.putBytes bs).buf = Memory.write s.buf 0 bs := rfl
@[simp] theorem putBytes_sym : (s.putBytes bs).sym = s.sym := rfl
@[simp] theorem putBytes_file : (s.putBytes bs).file = s.file := rfl
@[simp] theorem putBytes_cfg : (s.putBytes bs).cfg = s.cfg := rfl
@[simp] theorem putBytes_epoch : (s.putBytes bs).epoch = s.epoch := rfl
@[simp] theorem putBytes_inputs : (s.putBytes bs).inputs = s.inputs := rfl
@[simp] theorem putBytes_readback : (s.putBytes bs).readback = s.readback := rfl
@[simp] theorem putBytes_pixAt : (s.putBytes bs).pixAt = s.pixAt := rfl
@[simp] theorem putBytes_payAt : (s.putBytes bs).payAt = s.payAt := rfl
@[simp] theorem putBytes_symAt : (s.putBytes bs).symAt = s.symAt := rfl
@[simp] theorem putBytes_fileAt : (s.putBytes bs).fileAt = s.fileAt := rfl

end

/-! ### `putPayload` -/

section
variable (s : State) (q : List Byte)

@[simp] theorem putPayload_status : (s.putPayload q).status = s.status := rfl
@[simp] theorem putPayload_width : (s.putPayload q).width = s.width := rfl
@[simp] theorem putPayload_height : (s.putPayload q).height = s.height := rfl
@[simp] theorem putPayload_plen : (s.putPayload q).plen = BitVec.ofNat 64 q.length := rfl
@[simp] theorem putPayload_blen : (s.putPayload q).blen = s.blen := rfl
@[simp] theorem putPayload_slen : (s.putPayload q).slen = s.slen := rfl
@[simp] theorem putPayload_flen : (s.putPayload q).flen = s.flen := rfl
@[simp] theorem putPayload_padf : (s.putPayload q).padf = s.padf := rfl
@[simp] theorem putPayload_count : (s.putPayload q).count = s.count := rfl
@[simp] theorem putPayload_pix : (s.putPayload q).pix = s.pix := rfl
@[simp] theorem putPayload_pay : (s.putPayload q).pay = Memory.write s.pay 0 q := rfl
@[simp] theorem putPayload_buf : (s.putPayload q).buf = s.buf := rfl
@[simp] theorem putPayload_sym : (s.putPayload q).sym = s.sym := rfl
@[simp] theorem putPayload_file : (s.putPayload q).file = s.file := rfl
@[simp] theorem putPayload_cfg : (s.putPayload q).cfg = s.cfg := rfl
@[simp] theorem putPayload_epoch : (s.putPayload q).epoch = s.epoch := rfl
@[simp] theorem putPayload_inputs : (s.putPayload q).inputs = s.inputs := rfl
@[simp] theorem putPayload_readback : (s.putPayload q).readback = s.readback := rfl
@[simp] theorem putPayload_pixAt : (s.putPayload q).pixAt = s.pixAt := rfl
@[simp] theorem putPayload_bufAt : (s.putPayload q).bufAt = s.bufAt := rfl
@[simp] theorem putPayload_symAt : (s.putPayload q).symAt = s.symAt := rfl
@[simp] theorem putPayload_fileAt : (s.putPayload q).fileAt = s.fileAt := rfl

end

/-! ### `appendFile` -/

section
variable (s : State) (bs : List Byte)

@[simp] theorem appendFile_status : (s.appendFile bs).status = s.status := rfl
@[simp] theorem appendFile_width : (s.appendFile bs).width = s.width := rfl
@[simp] theorem appendFile_height : (s.appendFile bs).height = s.height := rfl
@[simp] theorem appendFile_plen : (s.appendFile bs).plen = s.plen := rfl
@[simp] theorem appendFile_blen : (s.appendFile bs).blen = s.blen := rfl
@[simp] theorem appendFile_slen : (s.appendFile bs).slen = s.slen := rfl
@[simp] theorem appendFile_flen : (s.appendFile bs).flen = BitVec.ofNat 64 (s.flen.toNat + bs.length) := rfl
@[simp] theorem appendFile_padf : (s.appendFile bs).padf = s.padf := rfl
@[simp] theorem appendFile_count : (s.appendFile bs).count = s.count := rfl
@[simp] theorem appendFile_pix : (s.appendFile bs).pix = s.pix := rfl
@[simp] theorem appendFile_pay : (s.appendFile bs).pay = s.pay := rfl
@[simp] theorem appendFile_buf : (s.appendFile bs).buf = s.buf := rfl
@[simp] theorem appendFile_sym : (s.appendFile bs).sym = s.sym := rfl
@[simp] theorem appendFile_file : (s.appendFile bs).file = Memory.write s.file s.flen.toNat bs := rfl
@[simp] theorem appendFile_cfg : (s.appendFile bs).cfg = s.cfg := rfl
@[simp] theorem appendFile_epoch : (s.appendFile bs).epoch = s.epoch := rfl
@[simp] theorem appendFile_inputs : (s.appendFile bs).inputs = s.inputs := rfl
@[simp] theorem appendFile_readback : (s.appendFile bs).readback = s.readback := rfl
@[simp] theorem appendFile_pixAt : (s.appendFile bs).pixAt = s.pixAt := rfl
@[simp] theorem appendFile_payAt : (s.appendFile bs).payAt = s.payAt := rfl
@[simp] theorem appendFile_bufAt : (s.appendFile bs).bufAt = s.bufAt := rfl
@[simp] theorem appendFile_symAt : (s.appendFile bs).symAt = s.symAt := rfl

end

/-! ### `writeSymbol` -/

section
variable (s : State) (i : Nat) (v : Symbol)

@[simp] theorem writeSymbol_status : (s.writeSymbol i v).status = s.status := rfl
@[simp] theorem writeSymbol_width : (s.writeSymbol i v).width = s.width := rfl
@[simp] theorem writeSymbol_height : (s.writeSymbol i v).height = s.height := rfl
@[simp] theorem writeSymbol_plen : (s.writeSymbol i v).plen = s.plen := rfl
@[simp] theorem writeSymbol_blen : (s.writeSymbol i v).blen = s.blen := rfl
@[simp] theorem writeSymbol_slen : (s.writeSymbol i v).slen = s.slen := rfl
@[simp] theorem writeSymbol_flen : (s.writeSymbol i v).flen = s.flen := rfl
@[simp] theorem writeSymbol_padf : (s.writeSymbol i v).padf = s.padf := rfl
@[simp] theorem writeSymbol_count : (s.writeSymbol i v).count = s.count := rfl
@[simp] theorem writeSymbol_pix : (s.writeSymbol i v).pix =
    Memory.write s.pix (rasterAddr s.cfg.ch i) [insertSymbol (s.pixAt (rasterAddr s.cfg.ch i)) v] := rfl
@[simp] theorem writeSymbol_pay : (s.writeSymbol i v).pay = s.pay := rfl
@[simp] theorem writeSymbol_buf : (s.writeSymbol i v).buf = s.buf := rfl
@[simp] theorem writeSymbol_sym : (s.writeSymbol i v).sym = s.sym := rfl
@[simp] theorem writeSymbol_file : (s.writeSymbol i v).file = s.file := rfl
@[simp] theorem writeSymbol_cfg : (s.writeSymbol i v).cfg = s.cfg := rfl
@[simp] theorem writeSymbol_epoch : (s.writeSymbol i v).epoch = s.epoch := rfl
@[simp] theorem writeSymbol_inputs : (s.writeSymbol i v).inputs = s.inputs := rfl
@[simp] theorem writeSymbol_readback : (s.writeSymbol i v).readback = s.readback := rfl
@[simp] theorem writeSymbol_payAt : (s.writeSymbol i v).payAt = s.payAt := rfl
@[simp] theorem writeSymbol_bufAt : (s.writeSymbol i v).bufAt = s.bufAt := rfl
@[simp] theorem writeSymbol_symAt : (s.writeSymbol i v).symAt = s.symAt := rfl
@[simp] theorem writeSymbol_fileAt : (s.writeSymbol i v).fileAt = s.fileAt := rfl

end

/-! ### `writeSymbolsFrom`: PIX only -/

/-- The loop of `write` touches PIX and nothing else (43_lsbchannel.md R83). -/
theorem writeSymbolsFrom_eq (s : State) (i : Nat) (vs : List Symbol) :
    s.writeSymbolsFrom i vs = { s with pix := (s.writeSymbolsFrom i vs).pix } := by
  induction vs generalizing s i with
  | nil => rfl
  | cons v vs ih => exact ih (s.writeSymbol i v) (i + 1)

section
variable (s : State) (i : Nat) (vs : List Symbol)

@[simp] theorem writeSymbolsFrom_status : (s.writeSymbolsFrom i vs).status = s.status := by
  rw [writeSymbolsFrom_eq]

@[simp] theorem writeSymbolsFrom_width : (s.writeSymbolsFrom i vs).width = s.width := by
  rw [writeSymbolsFrom_eq]

@[simp] theorem writeSymbolsFrom_height : (s.writeSymbolsFrom i vs).height = s.height := by
  rw [writeSymbolsFrom_eq]

@[simp] theorem writeSymbolsFrom_plen : (s.writeSymbolsFrom i vs).plen = s.plen := by
  rw [writeSymbolsFrom_eq]

@[simp] theorem writeSymbolsFrom_blen : (s.writeSymbolsFrom i vs).blen = s.blen := by
  rw [writeSymbolsFrom_eq]

@[simp] theorem writeSymbolsFrom_slen : (s.writeSymbolsFrom i vs).slen = s.slen := by
  rw [writeSymbolsFrom_eq]

@[simp] theorem writeSymbolsFrom_flen : (s.writeSymbolsFrom i vs).flen = s.flen := by
  rw [writeSymbolsFrom_eq]

@[simp] theorem writeSymbolsFrom_padf : (s.writeSymbolsFrom i vs).padf = s.padf := by
  rw [writeSymbolsFrom_eq]

@[simp] theorem writeSymbolsFrom_count : (s.writeSymbolsFrom i vs).count = s.count := by
  rw [writeSymbolsFrom_eq]

@[simp] theorem writeSymbolsFrom_pay : (s.writeSymbolsFrom i vs).pay = s.pay := by
  rw [writeSymbolsFrom_eq]

@[simp] theorem writeSymbolsFrom_buf : (s.writeSymbolsFrom i vs).buf = s.buf := by
  rw [writeSymbolsFrom_eq]

@[simp] theorem writeSymbolsFrom_sym : (s.writeSymbolsFrom i vs).sym = s.sym := by
  rw [writeSymbolsFrom_eq]

@[simp] theorem writeSymbolsFrom_file : (s.writeSymbolsFrom i vs).file = s.file := by
  rw [writeSymbolsFrom_eq]

@[simp] theorem writeSymbolsFrom_cfg : (s.writeSymbolsFrom i vs).cfg = s.cfg := by
  rw [writeSymbolsFrom_eq]

@[simp] theorem writeSymbolsFrom_epoch : (s.writeSymbolsFrom i vs).epoch = s.epoch := by
  rw [writeSymbolsFrom_eq]

@[simp] theorem writeSymbolsFrom_inputs : (s.writeSymbolsFrom i vs).inputs = s.inputs := by
  rw [writeSymbolsFrom_eq]

@[simp] theorem writeSymbolsFrom_readback : (s.writeSymbolsFrom i vs).readback = s.readback := by
  rw [writeSymbolsFrom_eq]

@[simp] theorem writeSymbolsFrom_payAt : (s.writeSymbolsFrom i vs).payAt = s.payAt := by
  rw [writeSymbolsFrom_eq]; rfl

@[simp] theorem writeSymbolsFrom_bufAt : (s.writeSymbolsFrom i vs).bufAt = s.bufAt := by
  rw [writeSymbolsFrom_eq]; rfl

@[simp] theorem writeSymbolsFrom_symAt : (s.writeSymbolsFrom i vs).symAt = s.symAt := by
  rw [writeSymbolsFrom_eq]; rfl

@[simp] theorem writeSymbolsFrom_fileAt : (s.writeSymbolsFrom i vs).fileAt = s.fileAt := by
  rw [writeSymbolsFrom_eq]; rfl

end

end Sys2Proof.Machine.State
end

