-- ==== Sys2Proof/Laws/SymbolCodec.lean ====
section
/-! SUPPORT. What `serialize` and `deserialize` give, symbol by symbol and byte by byte. -/

namespace Sys2Proof.Machine

theorem length_expand (bs : List Byte) : (bs.flatMap symbolsOf).length = 4 * bs.length := by
  induction bs with
  | nil => rfl
  | cons b bs ih => rw [List.flatMap_cons, List.length_append, ih]; simp [symbolsOf]; omega

/-- Symbol `i` of the expanded bytes is lane `i mod 4` of byte `i div 4` (20_memory.md R37, R38). -/
theorem getElem?_expand (bs : List Byte) (i : Nat) :
    (bs.flatMap symbolsOf)[i]? = bs[i / 4]?.map fun b => b.extractLsb' (6 - 2 * (i % 4)) 2 := by
  induction bs generalizing i with
  | nil => simp
  | cons b bs ih =>
    match i with
    | 0 => rfl
    | 1 => rfl
    | 2 => rfl
    | 3 => rfl
    | i + 4 =>
      have h1 : (i + 4) / 4 = i / 4 + 1 := by omega
      have h2 : (i + 4) % 4 = i % 4 := by omega
      simpa [symbolsOf, List.flatMap_cons, h1, h2] using ih i

@[simp] theorem length_serialize (bs : List Byte) (pf : Nat) (h : 0 < pf) :
    (serialize bs pf).length = padlen bs.length pf := by
  rw [serialize, List.length_append, length_expand, List.length_replicate, padCount_add bs.length pf h]

/-- The symbols of the bytes come first. -/
theorem getElem?_serialize_data (bs : List Byte) (pf i : Nat) (h : i < 4 * bs.length) :
    (serialize bs pf)[i]? = bs[i / 4]?.map fun b => b.extractLsb' (6 - 2 * (i % 4)) 2 := by
  rw [serialize, List.getElem?_append_left (by rwa [length_expand]), getElem?_expand]

/-- The padding symbols are zero. -/
theorem getElem?_serialize_pad (bs : List Byte) (pf i : Nat) (hpf : 0 < pf) (h : 4 * bs.length ≤ i)
    (hi : i < padlen bs.length pf) : (serialize bs pf)[i]? = some 0 := by
  have := padCount_add bs.length pf hpf
  rw [serialize, List.getElem?_append_right (by rwa [length_expand]), List.getElem?_replicate, length_expand,
    if_pos (by omega)]

/-- The byte whose lanes are symbols `i` to `i + 3` of a stream (41_symbolcodec.md R72). -/
def packedByte (c : Nat → Symbol) (i : Nat) : Byte := c i ++ c (i + 1) ++ c (i + 2) ++ c (i + 3)

/-- `deserialize` of a stream is its complete groups of four (41_symbolcodec.md R68). -/
theorem deserialize_readCells (c : Nat → Symbol) (a n : Nat) :
    deserialize (readCells c a n) = readCells (fun g => packedByte c (a + 4 * g)) 0 (n / 4) := by
  induction n using Nat.strongRecOn generalizing a with
  | _ n ih =>
    match n with
    | 0 => rfl
    | 1 => rfl
    | 2 => rfl
    | 3 => rfl
    | n + 4 =>
      have hs : readCells c a (n + 4) = c a :: c (a + 1) :: c (a + 2) :: c (a + 3) :: readCells c (a + 4) n := by
        refine List.ext_getElem (by simp) fun k h1 h2 => ?_
        match k with
        | 0 => simp
        | 1 => simp
        | 2 => simp
        | 3 => simp
        | k + 4 => simp [Nat.add_assoc, Nat.add_comm 4 k]
      have hd : (n + 4) / 4 = n / 4 + 1 := by omega
      rw [hs, deserialize, ih n (by omega), hd, byteOf_eq_append]
      refine List.ext_getElem (by simp) fun k h1 h2 => ?_
      cases k with
      | zero => simp [packedByte]
      | succ k =>
        have : a + 4 + 4 * k = a + 4 * (k + 1) := by omega
        simp [this]

/-- Deserializing takes serialized bytes off the front exactly. -/
theorem deserialize_expand_append (bs : List Byte) (rest : List Symbol) :
    deserialize (bs.flatMap symbolsOf ++ rest) = bs ++ deserialize rest := by
  induction bs with
  | nil => rfl
  | cons b bs ih => simpa [symbolsOf, List.flatMap_cons, deserialize, byteOf_symbols b] using ih

theorem deserialize_replicate_zero (n : Nat) : deserialize (List.replicate n 0#2) = List.replicate (n / 4) 0#8 := by
  induction n using Nat.strongRecOn with
  | _ n ih =>
    match n with
    | 0 => rfl
    | 1 => rfl
    | 2 => rfl
    | 3 => rfl
    | n + 4 =>
      have hd : (n + 4) / 4 = n / 4 + 1 := by omega
      have h0 : byteOf 0#2 0#2 0#2 0#2 = 0#8 := by decide
      simp [List.replicate_succ, deserialize, h0, ih n (by omega), hd]

end Sys2Proof.Machine
end

