-- ==== Sys2Proof/Laws/Carrier.lean ====
section
/-! SUPPORT. What writing symbols into the carrier does to every PIX cell, and what reading them back gives. -/

namespace Sys2Proof.Machine.State

theorem pixAt_writeSymbol_self (s : State) (i : Nat) (v : Symbol) :
    (s.writeSymbol i v).pixAt (rasterAddr s.cfg.ch i) = insertSymbol (s.pixAt (rasterAddr s.cfg.ch i)) v :=
  Memory.read_write_self _ _ _ _

theorem pixAt_writeSymbol_ne (s : State) (i : Nat) (v : Symbol) {a : Nat} (h : a ≠ rasterAddr s.cfg.ch i) :
    (s.writeSymbol i v).pixAt a = s.pixAt a :=
  Memory.read_write_ne _ _ _ h

/-- A cell that is no written symbol position keeps its value (43_lsbchannel.md R83). -/
theorem pixAt_writeSymbolsFrom_other (s : State) (i : Nat) (vs : List Symbol) {a : Nat}
    (h : ∀ k, k < vs.length → rasterAddr s.cfg.ch (i + k) ≠ a) : (s.writeSymbolsFrom i vs).pixAt a = s.pixAt a := by
  induction vs generalizing s i with
  | nil => rfl
  | cons v vs ih =>
    have h0 : a ≠ rasterAddr s.cfg.ch i := fun e => h 0 (by simp) (by simpa using e.symm)
    rw [writeSymbolsFrom, ih, pixAt_writeSymbol_ne s i v h0]
    intro k hk
    have := h (k + 1) (by simpa using hk)
    simpa [Nat.add_comm 1 k, Nat.add_assoc] using this

/-- A written symbol position holds its symbol in the low two bits and its old upper six (20_memory.md R47). -/
theorem pixAt_writeSymbolsFrom_symbol (s : State) (hch : 3 ≤ s.cfg.ch) (i : Nat) (vs : List Symbol) (k : Nat)
    (h : k < vs.length) : (s.writeSymbolsFrom i vs).pixAt (rasterAddr s.cfg.ch (i + k)) =
      insertSymbol (s.pixAt (rasterAddr s.cfg.ch (i + k))) vs[k] := by
  induction vs generalizing s i k with
  | nil => simp at h
  | cons v vs ih =>
    cases k with
    | zero =>
      simp only [writeSymbolsFrom, Nat.add_zero]
      have hne : ∀ k, k < vs.length → rasterAddr (s.writeSymbol i v).cfg.ch (i + 1 + k) ≠ rasterAddr s.cfg.ch i :=
        fun k _ e => by have := rasterAddr_injective hch e; omega
      rw [pixAt_writeSymbolsFrom_other _ _ _ hne, pixAt_writeSymbol_self]
      rfl
    | succ k =>
      have hk : k < vs.length := by simpa using h
      have e : i + (k + 1) = i + 1 + k := by omega
      have hne : rasterAddr s.cfg.ch (i + 1 + k) ≠ rasterAddr s.cfg.ch i :=
        fun e => by have := rasterAddr_injective hch e; omega
      have := ih (s.writeSymbol i v) hch (i + 1) k hk
      rw [writeSymbol_cfg, pixAt_writeSymbol_ne s i v hne] at this
      rw [writeSymbolsFrom, e, this]
      rfl

/-- The upper six bits of every cell survive, whatever CH is (20_memory.md R47). -/
theorem upperBits_writeSymbolsFrom (s : State) (i : Nat) (vs : List Symbol) (a : Nat) :
    (s.writeSymbolsFrom i vs).pixAt a &&& 0xFC#8 = s.pixAt a &&& 0xFC#8 := by
  induction vs generalizing s i with
  | nil => rfl
  | cons v vs ih =>
    rw [writeSymbolsFrom, ih]
    by_cases h : a = rasterAddr s.cfg.ch i
    · rw [h, pixAt_writeSymbol_self, upperBits_insertSymbol]
    · rw [pixAt_writeSymbol_ne s i v h]

/-- What is written is what is read back. -/
theorem carrierSymbol_writeSymbolsFrom (s : State) (hch : 3 ≤ s.cfg.ch) (vs : List Symbol) (k : Nat)
    (h : k < vs.length) : (s.writeSymbolsFrom 0 vs).carrierSymbol k = vs[k] := by
  have := pixAt_writeSymbolsFrom_symbol s hch 0 vs k h
  rw [Nat.zero_add] at this
  rw [carrierSymbol, writeSymbolsFrom_cfg, this, lowSymbol_insertSymbol]

/-- The loop keeps PIX in its form. -/
theorem wf_writeSymbolsFrom (s : State) (i : Nat) (vs : List Symbol) (h : Memory.wf s.pix) :
    Memory.wf (s.writeSymbolsFrom i vs).pix := by
  induction vs generalizing s i with
  | nil => exact h
  | cons v vs ih => exact ih (s.writeSymbol i v) (i + 1) (Memory.wf_write h _ _)

/-- The loop keeps PIX inside its capacity when the symbols fit the carrier and the grid fits PIX (20_memory.md R50). -/
theorem within_writeSymbolsFrom (s : State) (hch : 3 ≤ s.cfg.ch) (i : Nat) (vs : List Symbol)
    (hgrid : s.npix * s.cfg.ch ≤ s.cfg.pixBytes) (hfit : i + vs.length ≤ s.nsym)
    (h : Memory.within s.cfg.pixBytes s.pix) : Memory.within s.cfg.pixBytes (s.writeSymbolsFrom i vs).pix := by
  induction vs generalizing s i with
  | nil => exact h
  | cons v vs ih =>
    have hlt : rasterAddr s.cfg.ch i < s.npix * s.cfg.ch :=
      rasterAddr_lt hch (by simp only [nsym, List.length_cons] at hfit; omega)
    refine ih (s.writeSymbol i v) hch (i + 1) hgrid ?_ (Memory.within_write h ?_)
    · have : (s.writeSymbol i v).nsym = s.nsym := rfl
      rw [this]
      simp only [List.length_cons] at hfit
      omega
    · simp only [List.length_cons, List.length_nil]
      omega

end Sys2Proof.Machine.State
end

