-- ==== Sys2Proof/Laws/Exec.lean ====
section
/-! SUPPORT. Every way a command and a shared operation can end, said once: which error, or which state and which STATUS. -/

namespace Sys2Proof.Machine

/-! ### STATUS -/

theorem errorStatus_eq (e : ErrorCode) : errorStatus e = e.number.setWidth 32 := by cases e <;> decide

@[simp] theorem doneStatus_ok : doneStatus false .none = 0#32 := by decide
@[simp] theorem doneStatus_flag : doneStatus true .none = 0x10#32 := by decide
@[simp] theorem doneStatus_append : doneStatus true .append = 0x30#32 := by decide
@[simp] theorem doneStatus_lsb : doneStatus true .lsb = 0x50#32 := by decide

@[simp] theorem err_errorStatus (e : ErrorCode) : (errorStatus e).extractLsb' 0 4 = e.number := by cases e <;> decide

@[simp] theorem err_doneStatus (flag : Bool) (path : DecodePath) : (doneStatus flag path).extractLsb' 0 4 = 0#4 := by
  cases flag <;> cases path <;> decide

@[simp] theorem flag_errorStatus (e : ErrorCode) : (errorStatus e).getLsbD 4 = false := by cases e <;> decide

@[simp] theorem flag_doneStatus (flag : Bool) (path : DecodePath) : (doneStatus flag path).getLsbD 4 = flag := by
  cases flag <;> cases path <;> decide

theorem legalStatus_error {e : ErrorCode} (h : e ≠ .payloadDecodeError) : LegalStatus (errorStatus e) := by
  revert h; cases e <;> decide

theorem legalStatus_done {flag : Bool} {path : DecodePath} (h : flag = false → path = .none) :
    LegalStatus (doneStatus flag path) := by
  revert h; cases flag <;> cases path <;> decide

/-! ### The parsers, in terms of the bytes they find -/

theorem gridTooLarge_iff (s : State) :
    s.gridTooLarge = true ↔ s.cfg.pixBytes < s.width.toNat * s.height.toNat * s.cfg.ch := by
  simp [State.gridTooLarge, State.npix]

/-- The trailer parser: no magic, a file too short for a trailer, a length too large, or the payload. -/
theorem parseAppendTrailer_cases (s : State) :
    (¬ s.EndsInAppendMagic ∧ parseAppendTrailer s.fileAt s.flen.toNat = .ok none) ∨
    (s.EndsInAppendMagic ∧ s.flen.toNat < 12 ∧ parseAppendTrailer s.fileAt s.flen.toNat = .error .badFrame) ∨
    (∃ n, s.EndsInAppendMagic ∧ 12 ≤ s.flen.toNat ∧ HoldsLength s.fileAt (s.flen.toNat - 12) n ∧
      s.flen.toNat - 12 < n ∧ parseAppendTrailer s.fileAt s.flen.toNat = .error .badFrame) ∨
    ∃ n, s.EndsInAppendMagic ∧ 12 ≤ s.flen.toNat ∧ HoldsLength s.fileAt (s.flen.toNat - 12) n ∧
      n ≤ s.flen.toNat - 12 ∧ parseAppendTrailer s.fileAt s.flen.toNat =
        .ok (some (readCells s.fileAt (s.flen.toNat - 12 - n) n)) := by
  unfold parseAppendTrailer
  by_cases h4 : s.flen.toNat < 4
  · exact .inl ⟨fun h => by have := h.1; omega, by simp [h4]⟩
  have hmagic : fromLe (readCells s.fileAt (s.flen.toNat - 4) 4) = magicApp ↔ s.EndsInAppendMagic := by
    have e1 : s.flen.toNat - 4 + 1 = s.flen.toNat - 3 := by omega
    have e2 : s.flen.toNat - 4 + 2 = s.flen.toNat - 2 := by omega
    have e3 : s.flen.toNat - 4 + 3 = s.flen.toNat - 1 := by omega
    rw [readCells_four, fromLe_eq_magicApp, e1, e2, e3]
    exact ⟨fun h => ⟨by omega, h⟩, fun h => h.2⟩
  by_cases hm : s.EndsInAppendMagic
  · have hm' := hmagic.2 hm
    by_cases h12 : s.flen.toNat < 12
    · exact .inr (.inl ⟨hm, h12, by simp [h4, hm', h12]⟩)
    · have hn := (holdsLength_iff s.fileAt (s.flen.toNat - 12) _).2 rfl
      by_cases hfit : fromBe (readCells s.fileAt (s.flen.toNat - 12) 8) > s.flen.toNat - 12
      · exact .inr (.inr (.inl ⟨_, hm, by omega, hn, hfit, by simp [h4, hm', h12, hfit]⟩))
      · exact .inr (.inr (.inr ⟨_, hm, by omega, hn, by omega, by simp [h4, hm', h12, hfit]⟩))
  · exact .inl ⟨hm, by simp [h4, mt hmagic.1 hm]⟩

theorem holdsLength_unique {c : Nat → Byte} {a m n : Nat} (hm : HoldsLength c a m) (hn : HoldsLength c a n) : m = n :=
  ((holdsLength_iff c a m).1 hm).symm.trans ((holdsLength_iff c a n).1 hn)

/-- A scan from the origin gives the hidden bytes. -/
theorem deserialize_readFirst (s : State) (n : Nat) :
    deserialize (s.readFirst (4 * n)) = readCells s.hiddenByte 0 n := by
  rw [State.readFirst, deserialize_readCells, Nat.mul_div_cancel_left n (by omega)]
  refine readCells_congr fun k _ => ?_
  simp only [Nat.zero_add]
  rfl

theorem deserialize_readFirst_drop (s : State) (n : Nat) :
    deserialize ((s.readFirst (48 + 4 * n)).drop 48) = readCells s.hiddenByte 12 n := by
  rw [State.readFirst, readCells_drop, deserialize_readCells]
  have h : (48 + 4 * n - 48) / 4 = n := by omega
  rw [h]
  refine readCells_congr fun k _ => ?_
  have e : 0 + 48 + 4 * (0 + k) = 4 * (12 + k) := by omega
  simp only [e]
  rfl

/-- The two-phase extraction: no magic, a length too large, or the payload. -/
theorem extractLsb_cases (s : State) :
    (¬ s.StartsWithLsbMagic ∧ s.extractLsb = .ok none) ∨
    (∃ n, s.StartsWithLsbMagic ∧ HoldsLength s.hiddenByte 4 n ∧
      3 * (s.width.toNat * s.height.toNat) < 48 + 4 * n ∧ s.extractLsb = .error .badFrame) ∨
    ∃ n, s.StartsWithLsbMagic ∧ HoldsLength s.hiddenByte 4 n ∧
      48 + 4 * n ≤ 3 * (s.width.toNat * s.height.toNat) ∧
      s.extractLsb = .ok (some (readCells s.hiddenByte 12 n)) := by
  unfold State.extractLsb
  have hns : s.nsym = 3 * (s.width.toNat * s.height.toNat) := rfl
  by_cases h48 : s.nsym < 48
  · exact .inl ⟨fun h => by have := h.1; omega, by simp [h48]⟩
  have hhdr : deserialize (s.readFirst 48) = readCells s.hiddenByte 0 12 := deserialize_readFirst s 12
  have hlen : ((readCells s.hiddenByte 0 12).drop 4).take 8 = readCells s.hiddenByte 4 8 := by
    rw [readCells_drop, readCells_take]; rfl
  have hmagic : validateLsbHeader (readCells s.hiddenByte 0 12) = true ↔ s.StartsWithLsbMagic := by
    rw [validateLsbHeader, readCells_take, decide_eq_true_iff]
    rw [show min 4 12 = 4 from rfl, readCells_four, fromBe_eq_magicLsb]
    exact ⟨fun h => ⟨by omega, h⟩, fun h => h.2⟩
  by_cases hm : s.StartsWithLsbMagic
  · have hm' := hmagic.2 hm
    have hn := (holdsLength_iff s.hiddenByte 4 _).2 rfl
    by_cases hfit : 48 + 4 * fromBe (readCells s.hiddenByte 4 8) > s.nsym
    · exact .inr (.inl ⟨_, hm, hn, by omega, by simp [h48, hhdr, hm', hlen, hfit]⟩)
    · refine .inr (.inr ⟨_, hm, hn, by omega, ?_⟩)
      simp only [h48, hhdr, hm', hlen, hfit, if_false, deserialize_readFirst_drop, Bool.true_eq_false]
  · have hm' : validateLsbHeader (readCells s.hiddenByte 0 12) = false := by
      simpa using mt hmagic.1 hm
    exact .inl ⟨hm, by simp [h48, hhdr, hm']⟩

/-! ### Shared ends -/

/-- A payload that fits is returned whole; nothing else changes. -/
theorem deliver_fits (s : State) (cell : Nat → Byte) (a n : Nat) (path : DecodePath) (hn : n < 2 ^ 64)
    (hfit : n ≤ s.cfg.payBytes) : ∃ t, s.deliver (readCells cell a n) path = .next t ∧
      ReturnsPayload s t n (fun k => cell (a + k)) (doneStatus true path) := by
  refine ⟨_, by rw [State.deliver, if_neg (by simpa using hfit)]; rfl, rfl, ?_, ?_, ?_⟩
  · simpa using hn
  · intro k hk
    have h : k < (readCells cell a n).length := by simpa using hk
    have := Memory.read_write_of_mem (Config.unwrittenByte .pay s.epoch) s.pay 0 k _ h
    simpa [State.payAt] using this
  · intro b hb
    have := Memory.read_write_of_not_mem (Config.unwrittenByte .pay s.epoch) s.pay 0 b (readCells cell a n)
      (.inr (by simpa using hb))
    simpa [State.payAt] using this

/-- `deliver` ends with `BufferOverflow` or with the payload in PAY. -/
theorem deliver_cases (s : State) (q : List Byte) (path : DecodePath) :
    (s.cfg.payBytes < q.length ∧ s.deliver q path = s.raise .bufferOverflow) ∨
      (q.length ≤ s.cfg.payBytes ∧ s.deliver q path = (s.putPayload q).done true path) := by
  unfold State.deliver
  by_cases h : q.length > s.cfg.payBytes
  · exact .inl ⟨h, by simp [h]⟩
  · exact .inr ⟨by omega, by simp [h]⟩

/-! ### The commands: each one's ways to end -/

/-- SER: an error, or SYM and SLEN written (41_symbolcodec.md R69). -/
theorem execSer_cases (s : State) :
    (∃ e, (e = .badOperand ∨ e = .bufferOverflow) ∧ execSer s = s.raise e) ∨
    (s.blen.toNat ≤ s.cfg.bufBytes ∧ 0 < s.padf.toNat ∧ padlen s.blen.toNat s.padf.toNat ≤ s.cfg.symCells ∧
      execSer s = (s.putSymbols (serialize (readCells s.bufAt 0 s.blen.toNat) s.padf.toNat)).doneOk) := by
  unfold execSer
  split
  · exact .inl ⟨_, .inl rfl, rfl⟩
  split
  · exact .inl ⟨_, .inl rfl, rfl⟩
  split
  · exact .inl ⟨_, .inr rfl, rfl⟩
  · next h1 h2 h3 =>
    refine .inr ⟨by omega, Nat.pos_of_ne_zero fun h => h2 (BitVec.eq_of_toNat_eq h), by omega, rfl⟩

/-- DES: an error, or BUF and BLEN written (41_symbolcodec.md R70). -/
theorem execDes_cases (s : State) :
    (∃ e, (e = .badOperand ∨ e = .bufferOverflow) ∧ execDes s = s.raise e) ∨
    (s.slen.toNat ≤ s.cfg.symCells ∧ s.slen.toNat / 4 ≤ s.cfg.bufBytes ∧
      execDes s = (s.putBytes (deserialize (readCells s.symAt 0 s.slen.toNat))).doneOk) := by
  unfold execDes
  split
  · exact .inl ⟨_, .inl rfl, rfl⟩
  split
  · exact .inl ⟨_, .inr rfl, rfl⟩
  · exact .inr ⟨by omega, by omega, rfl⟩

/-- BLDL and BLDA: an error, or BUF and BLEN written (42_framecodec.md R74, R76). -/
theorem buildFrame_cases (s : State) (frame : List Byte → List Byte) :
    (∃ e, (e = .badOperand ∨ e = .bufferOverflow) ∧ s.buildFrame frame = s.raise e) ∨
    (s.plen.toNat ≤ s.cfg.payBytes ∧ s.plen.toNat + 12 ≤ s.cfg.bufBytes ∧
      s.buildFrame frame = (s.putBytes (frame s.payload)).doneOk) := by
  unfold State.buildFrame
  split
  · exact .inl ⟨_, .inl rfl, rfl⟩
  split
  · exact .inl ⟨_, .inr rfl, rfl⟩
  · exact .inr ⟨by omega, by omega, rfl⟩

/-- VALID: an error, or FLAG (42_framecodec.md R80). -/
theorem execValid_cases (s : State) :
    execValid s = s.raise .badOperand ∨ ∃ flag, execValid s = s.done flag .none := by
  unfold execValid
  split
  · exact .inl rfl
  split
  · exact .inl rfl
  · exact .inr ⟨_, rfl⟩

/-- PARSE and APPD: an error, "no match", or PAY and PLEN written (42_framecodec.md R78). -/
theorem trailerToPayload_cases (s : State) :
    (∃ e, (e = .badFrame ∨ e = .badOperand ∨ e = .bufferOverflow) ∧ s.trailerToPayload = s.raise e) ∨
    s.trailerToPayload = s.done false .none ∨
    ∃ n, n ≤ s.flen.toNat - 12 ∧ n ≤ s.cfg.payBytes ∧
      s.trailerToPayload =
        (s.putPayload (readCells s.fileAt (s.flen.toNat - 12 - n) n)).done true .append := by
  unfold State.trailerToPayload
  split
  · exact .inl ⟨_, .inr (.inl rfl), rfl⟩
  rcases parseAppendTrailer_cases s with ⟨_, h⟩ | ⟨_, _, h⟩ | ⟨n, _, _, _, _, h⟩ | ⟨n, _, _, _, hn, h⟩
  · exact .inr (.inl (by rw [h]; rfl))
  · exact .inl ⟨_, .inl rfl, by rw [h]; rfl⟩
  · exact .inl ⟨_, .inl rfl, by rw [h]; rfl⟩
  · rw [h]
    rcases deliver_cases s (readCells s.fileAt (s.flen.toNat - 12 - n) n) .append with ⟨_, h⟩ | ⟨hp, h⟩
    · exact .inl ⟨_, .inr (.inr rfl), h⟩
    · exact .inr (.inr ⟨n, hn, by simpa using hp, h⟩)

/-- LSBW: an error, or PIX written (43_lsbchannel.md R84). -/
theorem execLsbw_cases (s : State) :
    (∃ e, (e = .capacityExceeded ∨ e = .badOperand) ∧ execLsbw s = s.raise e) ∨
    (s.slen.toNat ≤ s.cfg.symCells ∧ s.npix * s.cfg.ch ≤ s.cfg.pixBytes ∧ s.slen.toNat ≤ s.nsym ∧
      execLsbw s = (s.writeSymbolsFrom 0 (readCells s.symAt 0 s.slen.toNat)).doneOk) := by
  unfold execLsbw
  split
  · exact .inl ⟨_, .inr rfl, rfl⟩
  split
  · exact .inl ⟨_, .inr rfl, rfl⟩
  split
  · exact .inl ⟨_, .inl rfl, rfl⟩
  · next h1 h2 h3 =>
    exact .inr ⟨by omega, by simpa [State.gridTooLarge] using h2, by omega, rfl⟩

/-- LSBR: an error, or SYM and SLEN written (43_lsbchannel.md R86). -/
theorem execLsbr_cases (s : State) :
    (∃ e, (e = .badOperand ∨ e = .bufferOverflow) ∧ execLsbr s = s.raise e) ∨
    (s.npix * s.cfg.ch ≤ s.cfg.pixBytes ∧ s.count.toNat ≤ s.nsym ∧ s.count.toNat ≤ s.cfg.symCells ∧
      execLsbr s = (s.putSymbols (s.readFirst s.count.toNat)).doneOk) := by
  unfold execLsbr
  split
  · exact .inl ⟨_, .inl rfl, rfl⟩
  split
  · exact .inl ⟨_, .inl rfl, rfl⟩
  split
  · exact .inl ⟨_, .inr rfl, rfl⟩
  · next h1 h2 h3 =>
    exact .inr ⟨by simpa [State.gridTooLarge] using h1, by omega, by omega, rfl⟩

/-- LSBX: an error, "no magic", or PAY and PLEN written (43_lsbchannel.md R88). -/
theorem execLsbx_cases (s : State) :
    (∃ e, (e = .badFrame ∨ e = .badOperand ∨ e = .bufferOverflow) ∧ execLsbx s = s.raise e) ∨
    execLsbx s = s.done false .none ∨
    ∃ n, n ≤ s.cfg.payBytes ∧ execLsbx s = (s.putPayload (readCells s.hiddenByte 12 n)).done true .lsb := by
  unfold execLsbx
  split
  · exact .inl ⟨_, .inr (.inl rfl), rfl⟩
  rcases extractLsb_cases s with ⟨_, h⟩ | ⟨n, _, _, _, h⟩ | ⟨n, _, _, _, h⟩
  · exact .inr (.inl (by rw [h]; rfl))
  · exact .inl ⟨_, .inl rfl, by rw [h]; rfl⟩
  · rw [h]
    rcases deliver_cases s (readCells s.hiddenByte 12 n) .lsb with ⟨_, h⟩ | ⟨hp, h⟩
    · exact .inl ⟨_, .inr (.inr rfl), h⟩
    · exact .inr (.inr ⟨n, by simpa using hp, h⟩)

/-- APPE and ENC with MODE 1: an error, or FILE and FLEN written (44_appendchannel.md R90). -/
theorem appendPayload_cases (s : State) :
    (∃ e, (e = .badOperand ∨ e = .bufferOverflow) ∧ s.appendPayload = s.raise e) ∨
    (s.plen.toNat ≤ s.cfg.payBytes ∧ s.flen.toNat + s.plen.toNat + 12 ≤ s.cfg.fileBytes ∧
      s.appendPayload = (s.appendFile (buildAppendFrame s.payload)).doneOk) := by
  unfold State.appendPayload
  split
  · exact .inl ⟨_, .inl rfl, rfl⟩
  split
  · exact .inl ⟨_, .inl rfl, rfl⟩
  split
  · exact .inl ⟨_, .inr rfl, rfl⟩
  · exact .inr ⟨by omega, by omega, rfl⟩

/-- ENC with MODE 0: an error, or PIX written (45_toplevel.md R93). -/
theorem embedPayload_cases (s : State) :
    (∃ e, (e = .capacityExceeded ∨ e = .badOperand) ∧ s.embedPayload = s.raise e) ∨
    (s.plen.toNat ≤ s.cfg.payBytes ∧ s.npix * s.cfg.ch ≤ s.cfg.pixBytes ∧ s.plen.toNat + 12 ≤ s.frameCapacity ∧
      s.embedPayload = (s.writeSymbolsFrom 0 (serialize (buildLsbFrame s.payload) 3)).doneOk) := by
  unfold State.embedPayload
  split
  · exact .inl ⟨_, .inr rfl, rfl⟩
  split
  · exact .inl ⟨_, .inr rfl, rfl⟩
  split
  · exact .inl ⟨_, .inl rfl, rfl⟩
  · next h1 h2 h3 =>
    exact .inr ⟨by omega, by simpa [State.gridTooLarge] using h2, by omega, rfl⟩

/-- DEC: an error, or PAY and PLEN written, from the trailer or from the pixels (45_toplevel.md R96). -/
theorem execDec_cases (s : State) :
    (∃ e, (e = .noHiddenData ∨ e = .badFrame ∨ e = .badOperand ∨ e = .bufferOverflow) ∧ execDec s = s.raise e) ∨
    (∃ n, n ≤ s.cfg.payBytes ∧
      execDec s = (s.putPayload (readCells s.fileAt (s.flen.toNat - 12 - n) n)).done true .append) ∨
    ∃ n, n ≤ s.cfg.payBytes ∧ execDec s = (s.putPayload (readCells s.hiddenByte 12 n)).done true .lsb := by
  unfold execDec
  split
  · exact .inl ⟨_, .inr (.inr (.inl rfl)), rfl⟩
  split
  · exact .inl ⟨_, .inr (.inr (.inl rfl)), rfl⟩
  unfold State.decodeAny
  rcases parseAppendTrailer_cases s with ⟨_, h⟩ | ⟨_, _, h⟩ | ⟨n, _, _, _, _, h⟩ | ⟨n, _, _, _, _, h⟩
  · rcases extractLsb_cases s with ⟨_, h'⟩ | ⟨n, _, _, _, h'⟩ | ⟨n, _, _, _, h'⟩
    · exact .inl ⟨_, .inl rfl, by rw [h, h']⟩
    · exact .inl ⟨_, .inr (.inl rfl), by rw [h, h']⟩
    · rw [h, h']
      rcases deliver_cases s (readCells s.hiddenByte 12 n) .lsb with ⟨_, h⟩ | ⟨hp, h⟩
      · exact .inl ⟨_, .inr (.inr (.inr rfl)), h⟩
      · exact .inr (.inr ⟨n, by simpa using hp, h⟩)
  · exact .inl ⟨_, .inr (.inl rfl), by rw [h]⟩
  · exact .inl ⟨_, .inr (.inl rfl), by rw [h]⟩
  · rw [h]
    rcases deliver_cases s (readCells s.fileAt (s.flen.toNat - 12 - n) n) .append with ⟨_, h⟩ | ⟨hp, h⟩
    · exact .inl ⟨_, .inr (.inr (.inr rfl)), h⟩
    · exact .inr (.inl ⟨n, by simpa using hp, h⟩)

end Sys2Proof.Machine
end

