-- ==== Sys2Proof/Laws/Frames.lean ====
section
/-! SUPPORT. The bytes of the two frames, what a space holds after a result is put into it, what an embedded frame leaves
in the carrier, and what the parsers find when a magic stands. -/

namespace Sys2Proof.Machine

/-! ### STATUS after each error -/

theorem errorStatus_capacityExceeded : errorStatus .capacityExceeded = 1#32 := by decide
theorem errorStatus_noHiddenData : errorStatus .noHiddenData = 2#32 := by decide
theorem errorStatus_invalidMode : errorStatus .invalidMode = 3#32 := by decide
theorem errorStatus_badFrame : errorStatus .badFrame = 5#32 := by decide
theorem errorStatus_badOperand : errorStatus .badOperand = 6#32 := by decide
theorem errorStatus_bufferOverflow : errorStatus .bufferOverflow = 7#32 := by decide
theorem errorStatus_illegalCommand : errorStatus .illegalCommand = 8#32 := by decide

/-! ### Cells after a result is put into a space -/

theorem getElem?_readCells {α : Type} (c : Nat → α) (a n k : Nat) (h : k < n) :
    (readCells c a n)[k]? = some (c (a + k)) :=
  List.getElem?_eq_some_iff.2 ⟨by simpa using h, by simp⟩

theorem symAt_putSymbols (s : State) {ss : List Symbol} {i : Nat} {v : Symbol} (h : ss[i]? = some v) :
    (s.putSymbols ss).symAt i = v := by
  obtain ⟨h1, h2⟩ := List.getElem?_eq_some_iff.1 h
  simpa [h2, State.symAt] using Memory.read_write_of_mem (Config.unwrittenSymbol s.epoch) s.sym 0 i ss h1

theorem symAt_putSymbols_above (s : State) {ss : List Symbol} {i : Nat} (h : ss.length ≤ i) :
    (s.putSymbols ss).symAt i = s.symAt i :=
  Memory.read_write_of_not_mem _ _ _ _ _ (.inr (by simpa using h))

theorem bufAt_putBytes (s : State) {bs : List Byte} {i : Nat} {v : Byte} (h : bs[i]? = some v) :
    (s.putBytes bs).bufAt i = v := by
  obtain ⟨h1, h2⟩ := List.getElem?_eq_some_iff.1 h
  simpa [h2, State.bufAt] using Memory.read_write_of_mem (Config.unwrittenByte .buf s.epoch) s.buf 0 i bs h1

theorem bufAt_putBytes_above (s : State) {bs : List Byte} {i : Nat} (h : bs.length ≤ i) :
    (s.putBytes bs).bufAt i = s.bufAt i :=
  Memory.read_write_of_not_mem _ _ _ _ _ (.inr (by simpa using h))

theorem fileAt_appendFile (s : State) {bs : List Byte} {k : Nat} {v : Byte} (h : bs[k]? = some v) :
    (s.appendFile bs).fileAt (s.flen.toNat + k) = v := by
  obtain ⟨h1, h2⟩ := List.getElem?_eq_some_iff.1 h
  exact (Memory.read_write_of_mem (Config.unwrittenByte .file s.epoch) s.file s.flen.toNat k bs h1).trans h2

theorem fileAt_appendFile_other (s : State) {bs : List Byte} {a : Nat}
    (h : a < s.flen.toNat ∨ s.flen.toNat + bs.length ≤ a) : (s.appendFile bs).fileAt a = s.fileAt a :=
  Memory.read_write_of_not_mem _ _ _ _ _ h

/-! ### The two frames, byte by byte -/

@[simp] theorem length_payload (s : State) : s.payload.length = s.plen.toNat := by simp [State.payload]

theorem buildLsbFrame_eq (p : List Byte) :
    buildLsbFrame p = [0xDE#8, 0xAD#8, 0xC0#8, 0xDE#8] ++ be p.length 8 ++ p := by rw [buildLsbFrame, be_magicLsb]

@[simp] theorem length_buildLsbFrame (p : List Byte) : (buildLsbFrame p).length = p.length + 12 := by
  simp [buildLsbFrame]; omega

theorem buildLsbFrame_magic (p : List Byte) {k : Nat} (h : k < 4) :
    (buildLsbFrame p)[k]? = [0xDE#8, 0xAD#8, 0xC0#8, 0xDE#8][k]? := by
  rw [buildLsbFrame_eq, List.append_assoc, List.getElem?_append_left (by simpa using h)]

theorem buildLsbFrame_length (p : List Byte) {k : Nat} (h : k < 8) :
    (buildLsbFrame p)[4 + k]? = (be p.length 8)[k]? := by
  rw [buildLsbFrame_eq, List.append_assoc, List.getElem?_append_right (by simp),
    List.getElem?_append_left (by simp; omega)]
  simp

theorem buildLsbFrame_payload (s : State) {k : Nat} (h : k < s.plen.toNat) :
    (buildLsbFrame s.payload)[12 + k]? = some (s.payAt k) := by
  rw [buildLsbFrame_eq, List.getElem?_append_right (by simp)]
  simp [State.payload, getElem?_readCells _ _ _ _ h]

theorem buildAppendFrame_eq (p : List Byte) :
    buildAppendFrame p = p ++ be p.length 8 ++ [0xDE#8, 0xC0#8, 0xFE#8, 0x5A#8] := by
  rw [buildAppendFrame, le_magicApp]

@[simp] theorem length_buildAppendFrame (p : List Byte) : (buildAppendFrame p).length = p.length + 12 := by
  simp [buildAppendFrame]

theorem buildAppendFrame_payload (s : State) {k : Nat} (h : k < s.plen.toNat) :
    (buildAppendFrame s.payload)[k]? = some (s.payAt k) := by
  rw [buildAppendFrame_eq, List.append_assoc, List.getElem?_append_left (by simpa using h)]
  simp [State.payload, getElem?_readCells _ _ _ _ h]

theorem buildAppendFrame_length (p : List Byte) {k : Nat} (h : k < 8) :
    (buildAppendFrame p)[p.length + k]? = (be p.length 8)[k]? := by
  rw [buildAppendFrame_eq, List.append_assoc, List.getElem?_append_right (by omega), Nat.add_sub_cancel_left,
    List.getElem?_append_left (by simpa using h)]

theorem buildAppendFrame_magic (p : List Byte) (k : Nat) :
    (buildAppendFrame p)[p.length + 8 + k]? = [0xDE#8, 0xC0#8, 0xFE#8, 0x5A#8][k]? := by
  rw [buildAppendFrame_eq, List.getElem?_append_right (by simp), List.length_append, length_be,
    Nat.add_sub_cancel_left]

/-- Cells that hold `be(n, 8)` hold the length `n`. -/
theorem holdsLength_of_getElem? {c : Nat → Byte} {a n : Nat} (hn : n < 2 ^ 64)
    (h : ∀ k < 8, ∀ v, (be n 8)[k]? = some v → c (a + k) = v) : HoldsLength c a n :=
  holdsLength_of_be hn fun k hk => by
    have hv := getElem?_be n 8 k hk
    rw [hv, h k hk _ hv]

/-! ### An embedded frame, read back -/

/-- Byte `k` of a serialized sequence is the hidden byte `k` of the carrier it was written to. -/
theorem hiddenByte_writeSymbolsFrom (s : State) (hch : 3 ≤ s.cfg.ch) {bs : List Byte} {pf k : Nat}
    {b : Byte} (h : bs[k]? = some b) : (s.writeSymbolsFrom 0 (serialize bs pf)).hiddenByte k = b := by
  obtain ⟨hk, hb⟩ := List.getElem?_eq_some_iff.1 h
  have hsym : ∀ j, j < 4 → (s.writeSymbolsFrom 0 (serialize bs pf)).hiddenSymbol (4 * k + j) =
      b.extractLsb' (6 - 2 * j) 2 := by
    intro j hj
    have hd := getElem?_serialize_data bs pf (4 * k + j) (by omega)
    have e1 : (4 * k + j) / 4 = k := by omega
    have e2 : (4 * k + j) % 4 = j := by omega
    rw [e1, e2, h, Option.map_some] at hd
    obtain ⟨h1, h2⟩ := List.getElem?_eq_some_iff.1 hd
    exact (s.carrierSymbol_writeSymbolsFrom hch _ _ h1).trans h2
  rw [State.hiddenByte, show 4 * k = 4 * k + 0 from rfl, hsym 0 (by omega), hsym 1 (by omega), hsym 2 (by omega),
    hsym 3 (by omega), ← byteOf_eq_append]
  exact byteOf_symbols b

/-- What `encodeLSB` leaves in the carrier (45_toplevel.md R92). -/
theorem hiddenBytes_embed (s : State) (hch : 3 ≤ s.cfg.ch) :
    let t := s.writeSymbolsFrom 0 (serialize (buildLsbFrame s.payload) 3)
    (t.hiddenByte 0 = 0xDE#8 ∧ t.hiddenByte 1 = 0xAD#8 ∧ t.hiddenByte 2 = 0xC0#8 ∧ t.hiddenByte 3 = 0xDE#8) ∧
      HoldsLength t.hiddenByte 4 s.plen.toNat ∧ ∀ k, k < s.plen.toNat → t.hiddenByte (12 + k) = s.payAt k := by
  have hw : ∀ {k : Nat} {b : Byte}, (buildLsbFrame s.payload)[k]? = some b →
      (s.writeSymbolsFrom 0 (serialize (buildLsbFrame s.payload) 3)).hiddenByte k = b :=
    hiddenByte_writeSymbolsFrom s hch
  refine ⟨⟨hw (buildLsbFrame_magic _ (by omega)), hw (buildLsbFrame_magic _ (by omega)),
    hw (buildLsbFrame_magic _ (by omega)), hw (buildLsbFrame_magic _ (by omega))⟩, ?_,
    fun k hk => hw (buildLsbFrame_payload s hk)⟩
  refine holdsLength_of_getElem? s.plen.isLt fun k hk v hv => hw ((buildLsbFrame_length _ hk).trans ?_)
  rwa [length_payload]

/-! ### The parsers where a magic stands, and where none does -/

theorem parseAppendTrailer_none (s : State) (hm : ¬ s.EndsInAppendMagic) :
    parseAppendTrailer s.fileAt s.flen.toNat = .ok none := by
  rcases parseAppendTrailer_cases s with ⟨_, h⟩ | ⟨h, _⟩ | ⟨n, h, _⟩ | ⟨n, h, _⟩
  · exact h
  all_goals exact absurd h hm

theorem parseAppendTrailer_short (s : State) (hm : s.EndsInAppendMagic) (h12 : s.flen.toNat < 12) :
    parseAppendTrailer s.fileAt s.flen.toNat = .error .badFrame := by
  rcases parseAppendTrailer_cases s with ⟨h, _⟩ | ⟨_, _, h⟩ | ⟨n, _, h, _⟩ | ⟨n, _, h, _⟩
  · exact absurd hm h
  · exact h
  all_goals omega

theorem parseAppendTrailer_length (s : State) (n : Nat) (hm : s.EndsInAppendMagic) (h12 : 12 ≤ s.flen.toNat)
    (hn : HoldsLength s.fileAt (s.flen.toNat - 12) n) : parseAppendTrailer s.fileAt s.flen.toNat =
      if s.flen.toNat - 12 < n then .error .badFrame
      else .ok (some (readCells s.fileAt (s.flen.toNat - 12 - n) n)) := by
  rcases parseAppendTrailer_cases s with ⟨h, _⟩ | ⟨_, h, _⟩ | ⟨m, _, _, h, hl, e⟩ | ⟨m, _, _, h, hl, e⟩
  · exact absurd hm h
  · omega
  · obtain rfl := holdsLength_unique h hn
    rw [if_pos hl, e]
  · obtain rfl := holdsLength_unique h hn
    rw [if_neg (by omega), e]

theorem extractLsb_none (s : State) (hm : ¬ s.StartsWithLsbMagic) : s.extractLsb = .ok none := by
  rcases extractLsb_cases s with ⟨_, h⟩ | ⟨n, h, _⟩ | ⟨n, h, _⟩
  · exact h
  all_goals exact absurd h hm

theorem extractLsb_length (s : State) (n : Nat) (hm : s.StartsWithLsbMagic) (hn : HoldsLength s.hiddenByte 4 n) :
    s.extractLsb = if 3 * (s.width.toNat * s.height.toNat) < 48 + 4 * n then .error .badFrame
      else .ok (some (readCells s.hiddenByte 12 n)) := by
  rcases extractLsb_cases s with ⟨h, _⟩ | ⟨m, _, h, hl, e⟩ | ⟨m, _, h, hl, e⟩
  · exact absurd hm h
  · obtain rfl := holdsLength_unique h hn
    rw [if_pos hl, e]
  · obtain rfl := holdsLength_unique h hn
    rw [if_neg (by omega), e]

end Sys2Proof.Machine
end

