-- ==== Sys2Proof/Laws/Ended.lean ====
section
/-! SUPPORT. Everything a command can do, said once: the states `exec` can answer. -/

namespace Sys2Proof.Machine

@[simp] theorem err_withErrorStatus (s : State) (e : ErrorCode) :
    ({ s with status := errorStatus e } : State).err = e.number := by simp [State.err]

theorem doneOk_eq (s : State) : s.doneOk = .next { s with status := 0 } := by simp [State.doneOk, State.done]

/-- The next states of a command, by what it wrote besides STATUS: nothing after an error, "not found" or VALID; else one
space and its length register, PIX, or FILE and FLEN (10_state.md R30; 60_exceptions.md R104, R108, R109). -/
inductive Ended (s : State) : Instr → State → Prop where
  | err (i : Instr) (e : ErrorCode) (marked : e.number ∈ markedErrors i) (raised : e ≠ .payloadDecodeError) :
      Ended s i { s with status := errorStatus e }
  | sym (i : Instr) (ss : List Symbol) (hi : i = .ser ∨ i = .lsbr) (fits : ss.length ≤ s.cfg.symCells) :
      Ended s i { s.putSymbols ss with status := 0 }
  | buf (i : Instr) (bs : List Byte) (hi : i = .des ∨ i = .bldl ∨ i = .blda) (fits : bs.length ≤ s.cfg.bufBytes) :
      Ended s i { s.putBytes bs with status := 0 }
  | pay (i : Instr) (q : List Byte) (path : DecodePath) (hp : path = .append ∨ path = .lsb)
      (hi : i ∈ [Instr.parse, .appd, .lsbx, .dec]) (fits : q.length ≤ s.cfg.payBytes) :
      Ended s i { s.putPayload q with status := doneStatus true path }
  | notFound (i : Instr) (hi : i ∈ [Instr.parse, .appd, .lsbx]) : Ended s i { s with status := 0 }
  | valid (flag : Bool) : Ended s .valid { s with status := doneStatus flag .none }
  | pix (i : Instr) (ss : List Symbol) (hi : i = .lsbw ∨ i = .enc 0) (fits : ss.length ≤ s.nsym)
      (grid : s.npix * s.cfg.ch ≤ s.cfg.pixBytes) : Ended s i { s.writeSymbolsFrom 0 ss with status := 0 }
  | file (i : Instr) (bs : List Byte) (hi : i = .appe ∨ i = .enc 1) (len : bs.length = s.plen.toNat + 12)
      (fits : s.flen.toNat + bs.length ≤ s.cfg.fileBytes) : Ended s i { s.appendFile bs with status := 0 }

theorem ended_trailerToPayload {i : Instr} (hi : i = .parse ∨ i = .appd) (s t : State)
    (h : s.trailerToPayload = .next t) : Ended s i t := by
  rcases trailerToPayload_cases s with ⟨e, he, h'⟩ | h' | ⟨n, _, h2, h'⟩ <;> rw [h'] at h <;> injection h with h <;> subst h
  · refine .err _ _ ?_ ?_
    · rcases hi with rfl | rfl <;> rcases he with rfl | rfl | rfl <;> decide
    · rcases he with rfl | rfl | rfl <;> simp
  · simpa using Ended.notFound (s := s) i (by rcases hi with rfl | rfl <;> simp)
  · exact .pay _ _ _ (.inl rfl) (by rcases hi with rfl | rfl <;> simp) (by simpa using h2)

theorem ended_buildFrame {i : Instr} (hi : i = .bldl ∨ i = .blda) {frame : List Byte → List Byte}
    (hf : ∀ p, (frame p).length = p.length + 12) (s t : State) (h : s.buildFrame frame = .next t) : Ended s i t := by
  rcases buildFrame_cases s frame with ⟨e, he, h'⟩ | ⟨_, h2, h'⟩ <;> rw [h'] at h
  · injection h with h
    subst h
    refine .err _ _ ?_ ?_
    · rcases hi with rfl | rfl <;> rcases he with rfl | rfl <;> decide
    · rcases he with rfl | rfl <;> simp
  · rw [doneOk_eq] at h
    injection h with h
    subst h
    exact .buf _ _ (by rcases hi with rfl | rfl <;> simp) (by rw [hf, length_payload]; exact h2)

theorem ended_appendPayload {i : Instr} (hi : i = .appe ∨ i = .enc 1) (s t : State) (h : s.appendPayload = .next t) :
    Ended s i t := by
  rcases appendPayload_cases s with ⟨e, he, h'⟩ | ⟨_, h2, h'⟩ <;> rw [h'] at h
  · injection h with h
    subst h
    refine .err _ _ ?_ ?_
    · rcases hi with rfl | rfl <;> rcases he with rfl | rfl <;> decide
    · rcases he with rfl | rfl <;> simp
  · rw [doneOk_eq] at h
    injection h with h
    subst h
    exact .file _ _ hi (by simp) (by simp; omega)

theorem ended_of_exec (i : Instr) (s t : State) (h : exec i s = .next t) : Ended s i t := by
  cases i with
  | ser =>
    rcases execSer_cases s with ⟨e, he, h'⟩ | ⟨_, h2, h3, h'⟩ <;> rw [exec, h'] at h
    · injection h with h; subst h; rcases he with rfl | rfl <;> exact .err _ _ (by decide) (by simp)
    · rw [doneOk_eq] at h; injection h with h; subst h
      exact .sym _ _ (.inl rfl) (by rw [length_serialize _ _ h2]; simpa using h3)
  | des =>
    rcases execDes_cases s with ⟨e, he, h'⟩ | ⟨_, h2, h'⟩ <;> rw [exec, h'] at h
    · injection h with h; subst h; rcases he with rfl | rfl <;> exact .err _ _ (by decide) (by simp)
    · rw [doneOk_eq] at h; injection h with h; subst h
      exact .buf _ _ (.inl rfl) (by rw [deserialize_readCells]; simpa using h2)
  | bldl => exact ended_buildFrame (.inl rfl) length_buildLsbFrame s t h
  | blda => exact ended_buildFrame (.inr rfl) length_buildAppendFrame s t h
  | parse => exact ended_trailerToPayload (.inl rfl) s t h
  | appd => exact ended_trailerToPayload (.inr rfl) s t h
  | valid =>
    rcases execValid_cases s with h' | ⟨f, h'⟩ <;> rw [exec, h'] at h <;> injection h with h <;> subst h
    · exact .err _ _ (by decide) (by simp)
    · exact .valid _
  | lsbw =>
    rcases execLsbw_cases s with ⟨e, he, h'⟩ | ⟨_, h2, h3, h'⟩ <;> rw [exec, h'] at h
    · injection h with h; subst h; rcases he with rfl | rfl <;> exact .err _ _ (by decide) (by simp)
    · rw [doneOk_eq] at h; injection h with h; subst h
      exact .pix _ _ (.inl rfl) (by simpa using h3) h2
  | lsbr =>
    rcases execLsbr_cases s with ⟨e, he, h'⟩ | ⟨_, _, h3, h'⟩ <;> rw [exec, h'] at h
    · injection h with h; subst h; rcases he with rfl | rfl <;> exact .err _ _ (by decide) (by simp)
    · rw [doneOk_eq] at h; injection h with h; subst h
      exact .sym _ _ (.inr rfl) (by simpa [State.readFirst] using h3)
  | lsbx =>
    rcases execLsbx_cases s with ⟨e, he, h'⟩ | h' | ⟨n, h2, h'⟩ <;> rw [exec, h'] at h <;> injection h with h <;> subst h
    · rcases he with rfl | rfl | rfl <;> exact .err _ _ (by decide) (by simp)
    · simpa using Ended.notFound (s := s) .lsbx (by simp)
    · exact .pay _ _ _ (.inr rfl) (by simp) (by simpa using h2)
  | appe => exact ended_appendPayload (.inl rfl) s t h
  | enc m =>
    match m with
    | 0 =>
      rcases embedPayload_cases s with ⟨e, he, h'⟩ | ⟨_, h2, h3, h'⟩ <;> rw [exec, execEnc, h'] at h
      · injection h with h; subst h; rcases he with rfl | rfl <;> exact .err _ _ (by decide) (by simp)
      · rw [doneOk_eq] at h; injection h with h; subst h
        refine .pix _ _ (.inr rfl) ?_ h2
        rw [length_serialize _ _ (by omega), length_buildLsbFrame, length_payload, padlen_eq_ceil _ _ (by omega)]
        simp only [State.frameCapacity, State.nsym] at *
        omega
    | 1 => exact ended_appendPayload (.inr rfl) s t h
    | m + 2 =>
      injection h with h
      subst h
      exact .err _ _ (by simp [markedErrors, ErrorCode.number]) (by simp)
  | dec =>
    rcases execDec_cases s with ⟨e, he, h'⟩ | ⟨n, h2, h'⟩ | ⟨n, h2, h'⟩ <;> rw [exec, h'] at h <;> injection h with h <;>
      subst h
    · rcases he with rfl | rfl | rfl | rfl <;> exact .err _ _ (by decide) (by simp)
    · exact .pay _ _ _ (.inl rfl) (by simp) (by simpa using h2)
    · exact .pay _ _ _ (.inr rfl) (by simp) (by simpa using h2)

/-! ### The loop of `write`, again and under an update of what it does not read -/

/-- An update that `writeSymbol` commutes with commutes with the loop. -/
theorem writeSymbolsFrom_comm (f : State → State) (hf : ∀ s i v, (f s).writeSymbol i v = f (s.writeSymbol i v)) (s : State)
    (i : Nat) (ss : List Symbol) : (f s).writeSymbolsFrom i ss = f (s.writeSymbolsFrom i ss) := by
  induction ss generalizing s i with
  | nil => rfl
  | cons v vs ih => rw [State.writeSymbolsFrom, hf, ih]; rfl

theorem lookup_writeSymbolsFrom_other (s : State) (i : Nat) (vs : List Symbol) {a : Nat}
    (h : ∀ k, k < vs.length → rasterAddr s.cfg.ch (i + k) ≠ a) :
    Memory.lookup (s.writeSymbolsFrom i vs).pix a = Memory.lookup s.pix a := by
  induction vs generalizing s i with
  | nil => rfl
  | cons v vs ih =>
    have h0 : a ≠ rasterAddr s.cfg.ch i := fun e => h 0 (by simp) (by simpa using e.symm)
    rw [State.writeSymbolsFrom, ih]
    · rw [State.writeSymbol_pix, Memory.lookup_write, if_neg (by simp; omega)]
    · intro k hk
      have := h (k + 1) (by simpa using hk)
      simpa [Nat.add_comm 1 k, Nat.add_assoc] using this

/-- A listed cell stays listed. -/
theorem isSome_lookup_writeSymbolsFrom (s : State) (i : Nat) (vs : List Symbol) (a : Nat)
    (h : (Memory.lookup s.pix a).isSome) : (Memory.lookup (s.writeSymbolsFrom i vs).pix a).isSome := by
  induction vs generalizing s i with
  | nil => exact h
  | cons v vs ih =>
    refine ih (s.writeSymbol i v) (i + 1) ?_
    rw [State.writeSymbol_pix, Memory.lookup_write]
    split
    · next h =>
      have : a - rasterAddr s.cfg.ch i = 0 := by simp at h; omega
      rw [this]
      rfl
    · exact h

/-- A written symbol position is listed. -/
theorem isSome_lookup_symbol (s : State) (i : Nat) (vs : List Symbol) (k : Nat) (h : k < vs.length) :
    (Memory.lookup (s.writeSymbolsFrom i vs).pix (rasterAddr s.cfg.ch (i + k))).isSome := by
  induction vs generalizing s i k with
  | nil => simp at h
  | cons v vs ih =>
    cases k with
    | zero =>
      refine isSome_lookup_writeSymbolsFrom (s.writeSymbol i v) (i + 1) vs _ ?_
      rw [State.writeSymbol_pix, Memory.lookup_write, if_pos (by simp)]
      simp
    | succ k =>
      have := ih (s.writeSymbol i v) (i + 1) k (by simpa using h)
      rwa [show i + 1 + k = i + (k + 1) by omega] at this

/-- Writing the same symbols again leaves PIX as it is (20_memory.md R48). -/
theorem pix_writeSymbolsFrom_twice (s : State) (hch : 3 ≤ s.cfg.ch) (vs : List Symbol) (hw : Memory.wf s.pix) :
    ((s.writeSymbolsFrom 0 vs).writeSymbolsFrom 0 vs).pix = (s.writeSymbolsFrom 0 vs).pix := by
  have w1 := s.wf_writeSymbolsFrom 0 vs hw
  refine Memory.ext_of_wf (State.wf_writeSymbolsFrom _ 0 vs w1) w1 fun a => ?_
  by_cases h : ∃ k, k < vs.length ∧ rasterAddr s.cfg.ch (0 + k) = a
  · obtain ⟨k, hk, rfl⟩ := h
    have h1 := isSome_lookup_symbol s 0 vs k hk
    have h2 := isSome_lookup_symbol (s.writeSymbolsFrom 0 vs) 0 vs k hk
    have p1 := s.pixAt_writeSymbolsFrom_symbol hch 0 vs k hk
    have p2 := (s.writeSymbolsFrom 0 vs).pixAt_writeSymbolsFrom_symbol (by simpa using hch) 0 vs k hk
    simp only [State.writeSymbolsFrom_cfg] at h2 p2
    rw [p1, insertSymbol_insertSymbol, ← p1] at p2
    obtain ⟨x, hx⟩ := Option.isSome_iff_exists.1 h1
    obtain ⟨y, hy⟩ := Option.isSome_iff_exists.1 h2
    simp only [State.pixAt, Memory.read, hx, hy, Option.getD_some] at p2
    rw [hx, hy, p2]
  · rw [lookup_writeSymbolsFrom_other _ _ _ fun k hk e => h ⟨k, hk, by simpa using e⟩]

end Sys2Proof.Machine
end

