-- ==== Sys2Proof/Laws/PerInstr.lean ====
section
/-! SUPPORT. Statements made per instruction, one lemma per constructor. -/

namespace Sys2Proof.Laws.FormatC

/-- The fields of a well-formed command's word: RSV 0, OP the command's number, MODE its operand or 0 (30_encoding.md
R55, R56, R57). -/
def Statement (i : Instr) : Prop :=
  i.wellFormed = true →
    rsvField (encode i) = 0 ∧ opField (encode i) = i.op ∧
      (modeField (encode i)).toNat = match i with
        | .enc mode => mode
        | _ => 0

theorem ser : Statement .ser := fun _ => by decide
theorem des : Statement .des := fun _ => by decide
theorem bldl : Statement .bldl := fun _ => by decide
theorem blda : Statement .blda := fun _ => by decide
theorem parse : Statement .parse := fun _ => by decide
theorem valid : Statement .valid := fun _ => by decide
theorem lsbw : Statement .lsbw := fun _ => by decide
theorem lsbr : Statement .lsbr := fun _ => by decide
theorem lsbx : Statement .lsbx := fun _ => by decide
theorem appe : Statement .appe := fun _ => by decide
theorem appd : Statement .appd := fun _ => by decide
theorem dec : Statement .dec := fun _ => by decide

/-- MODE at each of its four values. -/
theorem enc (mode : Nat) : Statement (.enc mode) := fun h => by
  have hm : mode < 4 := by simpa [Instr.wellFormed] using h
  revert h
  revert mode
  decide

end Sys2Proof.Laws.FormatC
end

