-- ==== Sys2Proof/Machine/Script.lean ====
section
/-! DEFINITION. The script notation of 30_encoding.md R62 and R63, as data: each line is a sequence of host actions. -/

namespace Sys2Proof.Machine

/-- The registers a script line can SET, and STATUS and CMD, which it can GET (30_encoding.md R62; 10_state.md R14). -/
inductive RegName where
  | cmd | status | width | height | plen | blen | slen | flen | padf | count
  deriving DecidableEq, Repr

/-- Register numbers (10_state.md R14). -/
def RegName.number : RegName → Nat
  | .cmd => 0
  | .status => 1
  | .width => 2
  | .height => 3
  | .plen => 4
  | .blen => 5
  | .slen => 6
  | .flen => 7
  | .padf => 8
  | .count => 9

/-- One line of a script (30_encoding.md R62, R63). -/
inductive ScriptLine where
  /-- `SET <REG>, <value>` -/
  | setReg (r : RegName) (value : BitVec 64)
  /-- `FILL <SPACE>, <addr>, <v0> <v1> ...` -/
  | fill (sp : Space) (addr : Nat) (values : List Byte)
  /-- `<MNEMONIC>`, and `ENC <mode>` -/
  | command (i : Instr)
  /-- `ENC.LSB` -/
  | encLsb
  /-- `ENC.END` -/
  | encEnd
  /-- `RAW <word>` -/
  | raw (w : Word)
  /-- `GET <REG>` -/
  | getReg (r : RegName)
  /-- `DUMP <SPACE>, <addr>, <n>` -/
  | dump (sp : Space) (addr n : Nat)
  deriving DecidableEq, Repr

/-- Consecutive cell writes, one cell at a time (20_memory.md R42). -/
def fillActions (sp : Space) : Nat → List Byte → List HostAction
  | _, [] => []
  | a, v :: vs => .writeCell sp a v :: fillActions sp (a + 1) vs

/-- The host actions a line stands for (30_encoding.md R62, R63). -/
def ScriptLine.actions : ScriptLine → List HostAction
  | .setReg r v => [.writeReg r.number v]
  | .fill sp a vs => fillActions sp a vs
  | .command i => [.command (encode i)]
  | .encLsb => [.command 0x0000000C]
  | .encEnd => [.command 0x0000010C]
  | .raw w => [.command w]
  | .getReg r => [.readReg r.number]
  | .dump sp a n => (List.range n).map fun k => .readCell sp (a + k)

/-- The host actions of a script, in order. -/
def scriptActions (ls : List ScriptLine) : List HostAction := ls.flatMap ScriptLine.actions

end Sys2Proof.Machine
end

