-- ==== Sys2Proof/Tests/Slice0.lean ====
section
/-! SUPPORT. Tests of single steps, with results from the worked examples of spec/ (30_encoding.md, 95_test_vectors.md), and
for every statement with hypotheses a state that meets them. -/

namespace Sys2Proof.Tests

open Sys2Proof Sys2Proof.Machine Host

/-! ### Helpers -/

/-- Room for the vectors of 95_test_vectors.md. -/
def roomy : Config := ⟨3, 60, 10, 22, 64, 40⟩

/-- Capacities small enough to sit on every boundary. -/
def tight : Config := ⟨3, 63, 2, 13, 60, 20⟩

/-- Just out of reset, with the capacities `roomy`. -/
def base : State := State.atReset roomy 0 [] none

/-- Just out of reset, with the capacities `tight`. -/
def edge : State := State.atReset tight 0 [] none

/-- The cells of a space that hold `vs` from address 0. -/
def cells {w : Nat} (vs : List (BitVec w)) : List (Nat × BitVec w) := Memory.cellsFrom 0 vs

/-- The result is a next state that passes `p`. -/
def onNext (r : Result) (p : State → Bool) : Bool :=
  match r with
  | .next t => p t
  | .fault _ => false
  | .refused _ => false

theorem exists_of_onNext {r : Result} {p : State → Bool} (h : onNext r p = true) : ∃ t, r = .next t ∧ p t = true := by
  cases r with
  | next t => exact ⟨t, rfl, h⟩
  | fault e => cases e
  | refused e => exact absurd h (by simp [onNext])

/-- The state a result answers, or `s`. -/
def after (r : Result) (s : State) : State :=
  match r with
  | .next t => t
  | .fault _ => s
  | .refused _ => s

theorem eq_after {r : Result} {s : State} (h : onNext r (fun _ => true) = true) : r = .next (after r s) := by
  obtain ⟨t, rfl, _⟩ := exists_of_onNext h
  rfl

/-- ERR, FLAG and PATH at once. -/
def statusIs (err : BitVec 4) (flag : Bool) (path : BitVec 2) (t : State) : Bool :=
  t.err == err && t.flag == flag && t.path == path

/-! ### Well-formed and ill-formed commands -/

theorem test_mode_four_is_ill_formed : (Instr.enc 4).wellFormed = false := by decide

theorem test_modes_below_four_are_well_formed : ∀ m, m < 4 → (Instr.enc m).wellFormed = true := by decide

/-! ### Decoding: words written out from RSV, MODE and OP (30_encoding.md R55, R56) -/

theorem test_decode_symbolCodec :
    decode 0b0000000000000000000000_00_00000001#32 = .ok .ser ∧
    decode 0b0000000000000000000000_00_00000010#32 = .ok .des := by decide

theorem test_decode_frameCodec :
    decode 0b0000000000000000000000_00_00000011#32 = .ok .bldl ∧
    decode 0b0000000000000000000000_00_00000100#32 = .ok .blda ∧
    decode 0b0000000000000000000000_00_00000101#32 = .ok .parse ∧
    decode 0b0000000000000000000000_00_00000110#32 = .ok .valid := by decide

theorem test_decode_lsbChannel :
    decode 0b0000000000000000000000_00_00000111#32 = .ok .lsbw ∧
    decode 0b0000000000000000000000_00_00001000#32 = .ok .lsbr ∧
    decode 0b0000000000000000000000_00_00001001#32 = .ok .lsbx := by decide

theorem test_decode_appendChannel :
    decode 0b0000000000000000000000_00_00001010#32 = .ok .appe ∧
    decode 0b0000000000000000000000_00_00001011#32 = .ok .appd := by decide

theorem test_decode_topLevel :
    decode 0b0000000000000000000000_00_00001100#32 = .ok (.enc 0) ∧
    decode 0b0000000000000000000000_01_00001100#32 = .ok (.enc 1) ∧
    decode 0b0000000000000000000000_10_00001100#32 = .ok (.enc 2) ∧
    decode 0b0000000000000000000000_11_00001100#32 = .ok (.enc 3) ∧
    decode 0b0000000000000000000000_00_00001101#32 = .ok .dec := by decide

/-- The illegal rows of V-ENC in 95_test_vectors.md, each with its name. -/
theorem test_decode_illegal :
    decode 0x00000000 = .error .unknownOp ∧ decode 0x0000000E = .error .unknownOp ∧
    decode 0x000000FF = .error .unknownOp ∧ decode 0x0000040C = .error .reservedNotZero ∧
    decode 0x0000010D = .error .modeNotZero ∧ decode 0x00000101 = .error .modeNotZero ∧
    decode 0x80000001 = .error .reservedNotZero := by decide

/-- `withFetchWord` puts the word where the next step runs it (30_encoding.md R65; 45_toplevel.md R93). -/
theorem test_fetch_word : onNext (step (State.reset.withFetchWord 32 0x0000020C)) (statusIs 3 false 0) = true := by
  decide +kernel

/-- `ENC.END` and `ENC 1` are one word (30_encoding.md R63). -/
theorem test_script_encEnd : ScriptLine.encEnd.actions = (ScriptLine.command (.enc 1)).actions := by decide

/-! ### One step of each command: the vectors of 95_test_vectors.md, part 2 -/

/-- V-SYM: `1B E4`, factor 3. -/
theorem test_ser_pads : onNext (exec .ser { base with buf := cells [0x1B, 0xE4], blen := 2 })
    (fun t => t.slen == 9 && readCells t.symAt 0 9 == [0, 1, 2, 3, 3, 2, 1, 0, 0] && statusIs 0 false 0 t) = true := by
  decide +kernel

/-- V-SYM: factor 0, empty BUF. -/
theorem test_ser_factor_zero : onNext (exec .ser { base with padf := 0 }) (statusIs 6 false 0) = true := by decide +kernel

/-- V-SYM: the incomplete group is dropped. -/
theorem test_des_drops_tail : onNext (exec .des { base with sym := cells [0, 1, 2, 3, 3, 2], slen := 6 })
    (fun t => t.blen == 1 && t.bufAt 0 == 0x1B && statusIs 0 false 0 t) = true := by decide +kernel

/-- V-SYM: the magic from its symbols. -/
theorem test_des_magic : onNext
    (exec .des { base with sym := cells [3, 1, 3, 2, 2, 2, 3, 1, 3, 0, 0, 0, 3, 1, 3, 2], slen := 16 })
    (fun t => t.blen == 4 && readCells t.bufAt 0 4 == [0xDE, 0xAD, 0xC0, 0xDE]) = true := by decide +kernel

/-- V-FRM: payload `61 62 63`. -/
theorem test_bldl_abc : onNext (exec .bldl { base with pay := cells [0x61, 0x62, 0x63], plen := 3 })
    (fun t => t.blen == 15 && readCells t.bufAt 0 15 ==
      [0xDE, 0xAD, 0xC0, 0xDE, 0, 0, 0, 0, 0, 0, 0, 3, 0x61, 0x62, 0x63]) = true := by decide +kernel

/-- V-FRM: `PLEN = PAY_BYTES + 1`. -/
theorem test_bldl_long : onNext (exec .bldl { base with plen := 11 }) (statusIs 6 false 0) = true := by decide +kernel

/-- V-FRM: payload `61 62 63`. -/
theorem test_blda_abc : onNext (exec .blda { base with pay := cells [0x61, 0x62, 0x63], plen := 3 })
    (fun t => t.blen == 15 && readCells t.bufAt 0 15 ==
      [0x61, 0x62, 0x63, 0, 0, 0, 0, 0, 0, 0, 3, 0xDE, 0xC0, 0xFE, 0x5A]) = true := by decide +kernel

/-- The file of V-FRM and of 42_framecodec.md R78: `AA BB`, payload `61 62 63`, trailer. -/
def abcFile : List Byte := [0xAA, 0xBB, 0x61, 0x62, 0x63, 0, 0, 0, 0, 0, 0, 0, 3, 0xDE, 0xC0, 0xFE, 0x5A]

/-- V-FRM: the trailer of `abcFile`. -/
theorem test_parse_abc : onNext (exec .parse { base with file := cells abcFile, flen := 17 })
    (fun t => t.plen == 3 && readCells t.payAt 0 3 == [0x61, 0x62, 0x63] && statusIs 0 true 1 t) = true := by
  decide +kernel

/-- V-FRM: length `2^64 - 1`. -/
theorem test_parse_huge_length : onNext (exec .parse { base with
      file := cells [0xFF, 0xFF, 0xFF, 0xFF, 0xFF, 0xFF, 0xFF, 0xFF, 0xDE, 0xC0, 0xFE, 0x5A], flen := 12 })
    (statusIs 5 false 0) = true := by decide +kernel

/-- V-FRM: the magic, any length. -/
theorem test_valid_magic : onNext (exec .valid { base with
      buf := cells [0xDE, 0xAD, 0xC0, 0xDE, 0xFF, 0xFF, 0xFF, 0xFF, 0xFF, 0xFF, 0xFF, 0xFF], blen := 12 })
    (statusIs 0 true 0) = true := by decide +kernel

/-- V-FRM: the magic in the wrong byte order. -/
theorem test_valid_wrong_order : onNext (exec .valid { base with
      buf := cells [0xDE, 0xC0, 0xAD, 0xDE, 0, 0, 0, 0, 0, 0, 0, 0], blen := 12 })
    (statusIs 0 false 0) = true := by decide +kernel

/-- V-LSB: four symbols, the last pixel partly written. -/
theorem test_lsbw_mid_pixel : onNext (exec .lsbw { base with
      width := 2, height := 1, pix := cells [0x10, 0x21, 0x32, 0x43, 0x54, 0x65], sym := cells [3, 1, 3, 2], slen := 4 })
    (fun t => readCells t.pixAt 0 6 == [0x13, 0x21, 0x33, 0x42, 0x54, 0x65]) = true := by decide +kernel

/-- V-LSB: four channels stored, channel 3 skipped. -/
theorem test_lsbw_skips_alpha : onNext (exec .lsbw { base with
      cfg := { roomy with ch := 4 }, width := 2, height := 1,
      pix := cells [0x10, 0x21, 0x32, 0xA0, 0x43, 0x54, 0x65, 0xA1], sym := cells [3, 1, 3, 2], slen := 4 })
    (fun t => readCells t.pixAt 0 8 == [0x13, 0x21, 0x33, 0xA0, 0x42, 0x54, 0x65, 0xA1]) = true := by decide +kernel

/-- V-LSB: a scan that stops mid-pixel. -/
theorem test_lsbr_mid_pixel : onNext (exec .lsbr { base with
      width := 2, height := 1, pix := cells [0x13, 0x21, 0x32, 0x43, 0x54, 0x65], count := 4 })
    (fun t => t.slen == 4 && readCells t.symAt 0 4 == [3, 1, 2, 3]) = true := by decide +kernel

/-- V-LSB: one symbol more than the carrier has. -/
theorem test_lsbr_beyond : onNext (exec .lsbr { base with width := 2, height := 1, count := 7 })
    (statusIs 6 false 0) = true := by decide +kernel

/-- PIX of V-MID after its ENC. -/
def midPix : List Byte :=
  [0x43, 0x41, 0x43, 0x42, 0x46, 0x46, 0x47, 0x45, 0x4B, 0x48, 0x48, 0x48, 0x4F, 0x4D, 0x4F, 0x4E, 0x50, 0x50] ++
  [0x50, 0x50, 0x54, 0x54, 0x54, 0x54, 0x58, 0x58, 0x58, 0x58, 0x5C, 0x5C, 0x5C, 0x5C, 0x60, 0x60, 0x60, 0x60] ++
  [0x64, 0x64, 0x64, 0x64, 0x68, 0x68, 0x68, 0x68, 0x6C, 0x6C, 0x6C, 0x6D, 0x71, 0x71, 0x72, 0x72, 0x74, 0x74]

/-- V-LSB: the carrier of V-MID. -/
theorem test_lsbx_mid : onNext (exec .lsbx { base with width := 6, height := 3, pix := cells midPix })
    (fun t => t.plen == 1 && t.payAt 0 == 0x5A && statusIs 0 true 2 t) = true := by decide +kernel

/-- The low bits of a header with length 1 (V-LSB). -/
def headerOne : List Byte := [3, 1, 3, 2, 2, 2, 3, 1, 3, 0, 0, 0, 3, 1, 3, 2] ++ List.replicate 31 0 ++ [1]

/-- V-LSB: a length the carrier cannot hold. -/
theorem test_lsbx_bad_frame : onNext (exec .lsbx { base with width := 4, height := 4, pix := cells headerOne })
    (statusIs 5 false 0) = true := by decide +kernel

/-- V-APP: first row. -/
theorem test_appe_abc : onNext (exec .appe { base with
      file := cells [0xAA, 0xBB], flen := 2, pay := cells [0x61, 0x62, 0x63], plen := 3 })
    (fun t => t.flen == 17 && readCells t.fileAt 0 17 == abcFile && statusIs 0 false 0 t) = true := by decide +kernel

/-- V-APP: one byte too many. -/
theorem test_appe_overflow : onNext (exec .appe { base with flen := 26, plen := 3 }) (statusIs 7 false 0) = true := by
  decide +kernel

/-- V-APP: the first row's result. -/
theorem test_appd_abc : onNext (exec .appd { base with file := cells abcFile, flen := 17 })
    (fun t => t.plen == 3 && readCells t.payAt 0 3 == [0x61, 0x62, 0x63] && statusIs 0 true 1 t) = true := by
  decide +kernel

/-- V-MID: PIX cell `a` is `0x40 + a`, payload `5A`. -/
theorem test_enc_lsb_mid : onNext (exec (.enc 0) { base with
      width := 6, height := 3, pix := cells ((List.range 54).map fun a => BitVec.ofNat 8 (0x40 + a)),
      pay := cells [0x5A], plen := 1 })
    (fun t => readCells t.pixAt 0 54 == midPix && statusIs 0 false 0 t) = true := by decide +kernel

/-- V-TOP: the mode is checked before PLEN. -/
theorem test_enc_mode_first : onNext (exec (.enc 3) { base with plen := 11 }) (statusIs 3 false 0) = true := by
  decide +kernel

/-- 45_toplevel.md R96: the trailer is found first. -/
theorem test_dec_trailer : onNext (exec .dec { base with file := cells abcFile, flen := 17 })
    (fun t => t.plen == 3 && readCells t.payAt 0 3 == [0x61, 0x62, 0x63] && statusIs 0 true 1 t) = true := by
  decide +kernel

/-- V-TOP: no trailer, all pixels `FF`. -/
theorem test_dec_nothing : onNext (exec .dec { base with
      width := 4, height := 4, pix := cells (List.replicate 48 0xFF) }) (statusIs 2 false 0) = true := by decide +kernel

/-! ### The invariant -/

theorem reset_inv : State.reset.Inv := by decide

theorem base_inv : base.Inv := by decide

theorem edge_inv : edge.Inv := by decide

/-! ### Witnesses: states that meet the hypotheses of each statement, each clause at a boundary -/

/-- An append file with `n` payload bytes and no image bytes. -/
def trailer (n : Nat) : List Byte := List.replicate n 0x77 ++ be n 8 ++ [0xDE, 0xC0, 0xFE, 0x5A]

/-- PIX cells that carry the LSB header with length `n` and `n` payload bytes `00`, for `n < 4`. -/
def carrier (n : Nat) : List Byte :=
  [3, 1, 3, 2, 2, 2, 3, 1, 3, 0, 0, 0, 3, 1, 3, 2] ++ List.replicate 31 0 ++ [BitVec.ofNat 8 n] ++
    List.replicate (4 * n) 0

/-- The operand checks of DEC pass (45_toplevel.md R96). -/
abbrev OperandsFit (s : State) : Prop :=
  s.flen.toNat ≤ s.cfg.fileBytes ∧ s.width.toNat * s.height.toNat * s.cfg.ch ≤ s.cfg.pixBytes

theorem witness_EncodedFieldsOfFormatC :
    (Instr.enc 0).wellFormed = true ∧ (Instr.enc 3).wellFormed = true ∧ Instr.dec.wellFormed = true := by decide

theorem witness_IllegalWordsRaiseCode8 :
    ({ edge with inputs := [.command 0x0000040C] } : State).inputs = [.writeReg 0 ((0x0000040C#32).setWidth 64)] ∧
      ∃ e, decode 0x0000040C = .error e :=
  ⟨rfl, .reservedNotZero, by decide⟩

theorem witness_StepRunsDecodedCommand :
    ({ edge with inputs := [.command 0x0000030C] } : State).inputs = [.writeReg 0 ((0x0000030C#32).setWidth 64)] ∧
      decode 0x0000030C = .ok (.enc 3) := ⟨rfl, by decide⟩

theorem witness_EveryCmdWriteIsOneStep :
    ({ edge with inputs := [.command 0xFFFFFFFF, .reset] } : State).inputs =
      .writeReg 0 ((0xFFFFFFFF#32).setWidth 64) :: [.reset] := rfl

theorem witness_ResetEventRestoresRegisters : ({ edge with inputs := [.reset] } : State).inputs = .reset :: [] := rfl

theorem witness_CmdReadsZeroStatusIsReadOnly :
    ({ edge with inputs := [.readReg 0] } : State).inputs = .readReg 0 :: [] ∧
    ({ edge with inputs := [.writeReg 1 5] } : State).inputs = .writeReg 1 5 :: [] ∧
    ({ edge with inputs := [.readReg 1] } : State).inputs = .readReg 1 :: [] := ⟨rfl, rfl, rfl⟩

/-- Register 2 with the largest value of 32 bits, register 9 with the largest of 64. -/
theorem witness_RwRegistersReadBack :
    (2 ≤ 2 ∧ 2 ≤ 9 ∧ (2 ∈ [2, 3, 8] → (0xFFFFFFFF#64).toNat < 2 ^ 32) ∧
      ({ edge with inputs := [.writeReg 2 0xFFFFFFFF, .readReg 2] } : State).inputs =
        .writeReg 2 0xFFFFFFFF#64 :: .readReg 2 :: []) ∧
    (2 ≤ 9 ∧ 9 ≤ 9 ∧ (9 ∈ [2, 3, 8] → (0xFFFFFFFFFFFFFFFF#64).toNat < 2 ^ 32) ∧
      ({ edge with inputs := [.writeReg 9 0xFFFFFFFFFFFFFFFF, .readReg 9] } : State).inputs =
        .writeReg 9 0xFFFFFFFFFFFFFFFF#64 :: .readReg 9 :: []) := by decide

/-- The last cell of each byte space. -/
theorem witness_HostByteWriteStoresOneCell :
    ∀ sp ∈ [Space.pix, .pay, .buf, .file], sp ≠ .sym ∧ tight.capacity sp - 1 < edge.cfg.capacity sp ∧
      ({ edge with inputs := [.writeCell sp (tight.capacity sp - 1) 0xFF] } : State).inputs =
        .writeCell sp (tight.capacity sp - 1) 0xFF :: [] := by decide

theorem witness_HostSymbolWriteKeepsLowTwoBits :
    59 < edge.cfg.symCells ∧
      ({ edge with inputs := [.writeCell .sym 59 0xFE] } : State).inputs = .writeCell .sym 59 0xFE :: [] := by decide

/-- The last register and the last cell of PAY. -/
theorem witness_HostReadsHaveNoSideEffect :
    (9 ≤ 9 ∧ ({ edge with inputs := [.readReg 9] } : State).inputs = .readReg 9 :: []) ∧
      1 < edge.cfg.capacity .pay ∧ ({ edge with inputs := [.readCell .pay 1] } : State).inputs = .readCell .pay 1 :: [] := by
  decide

theorem witness_HostAccessOutsideIsRefused :
    9 < 10 ∧ edge.cfg.capacity .pay ≤ 2 ∧
    ({ edge with inputs := [.writeReg 10 0] } : State).inputs = .writeReg 10 0 :: [] ∧
    ({ edge with inputs := [.readReg 10] } : State).inputs = .readReg 10 :: [] ∧
    ({ edge with inputs := [.writeCell .pay 2 0] } : State).inputs = .writeCell .pay 2 0 :: [] ∧
    ({ edge with inputs := [.readCell .pay 2] } : State).inputs = .readCell .pay 2 :: [] := by decide

theorem witness_IdleAndOverwideWrites :
    edge.inputs = [] ∧ 8 ∈ [0, 2, 3, 8] ∧ 2 ^ 32 ≤ (0x100000000#64).toNat ∧
      ({ edge with inputs := [.writeReg 8 0x100000000] } : State).inputs = .writeReg 8 0x100000000#64 :: [] := by decide

/-- The smallest parameters the constraints of 00_scope.md R9 allow, and the largest. -/
theorem witness_FirstCommandAfterReset :
    Config.Ok ⟨3, 0, 0, 12, 48, 12⟩ ∧ Config.Ok ⟨2 ^ 64 - 1, 2 ^ 64 - 1, 2 ^ 64 - 1, 2 ^ 64 - 1, 2 ^ 64 - 1, 2 ^ 64 - 1⟩ ∧
      ¬ Config.Ok ⟨3, 2 ^ 64, 0, 12, 48, 12⟩ ∧
      ({ edge with inputs := [.command 0x0000000C] } : State) = State.atReset tight 0 [.command 0x0000000C] none := by
  decide

theorem witness_SerializeDeserializeRoundTrip : 1 ≤ 1 ∧ 1 ≤ 8 := by decide

/-- BLEN one too large; factor 0; one symbol more than SYM has cells; exactly as many, four of data and the rest padding. -/
theorem witness_SerSerializesBufIntoSym :
    (∃ s : State, s.cfg.bufBytes < s.blen.toNat) ∧
    (∃ s : State, s.blen.toNat ≤ s.cfg.bufBytes ∧ s.padf.toNat = 0) ∧
    (∃ s : State, s.blen.toNat ≤ s.cfg.bufBytes ∧ s.padf.toNat ≠ 0 ∧
      s.cfg.symCells < s.padf.toNat * ((4 * s.blen.toNat + s.padf.toNat - 1) / s.padf.toNat)) ∧
    ∃ s : State, s.blen.toNat ≤ s.cfg.bufBytes ∧ s.padf.toNat ≠ 0 ∧ s.cfg.Ok ∧
      s.padf.toNat * ((4 * s.blen.toNat + s.padf.toNat - 1) / s.padf.toNat) = s.cfg.symCells ∧
      0 < s.blen.toNat ∧ 4 * s.blen.toNat < s.cfg.symCells :=
  ⟨⟨{ edge with blen := 14 }, by decide⟩, ⟨{ edge with blen := 13, padf := 0 }, by decide⟩,
    ⟨{ edge with blen := 1, padf := 61 }, by decide⟩, ⟨{ edge with blen := 1, padf := 60 }, by decide⟩⟩

/-- SLEN one too large; one byte too many for BUF; exactly as many, with three symbols left over. -/
theorem witness_DesDeserializesSymIntoBuf :
    (∃ s : State, s.cfg.symCells < s.slen.toNat) ∧
    (∃ s : State, s.slen.toNat ≤ s.cfg.symCells ∧ s.cfg.bufBytes < s.slen.toNat / 4) ∧
    ∃ s : State, s.slen.toNat ≤ s.cfg.symCells ∧ s.slen.toNat / 4 = s.cfg.bufBytes ∧ s.slen.toNat % 4 = 3 :=
  ⟨⟨{ edge with slen := 61 }, by decide⟩, ⟨{ edge with slen := 56 }, by decide⟩, ⟨{ edge with slen := 55 }, by decide⟩⟩

/-- PLEN one too large for PAY; one too large for BUF; exactly the capacity of BUF. For BLDL and BLDA. -/
theorem witness_BldlBuildsLsbFrame_BldaBuildsAppendFrame :
    (∃ s : State, s.cfg.payBytes < s.plen.toNat) ∧
    (∃ s : State, s.plen.toNat ≤ s.cfg.payBytes ∧ s.cfg.bufBytes < s.plen.toNat + 12) ∧
    ∃ s : State, s.cfg.Ok ∧ s.plen.toNat ≤ s.cfg.payBytes ∧ s.plen.toNat + 12 = s.cfg.bufBytes ∧ 0 < s.plen.toNat :=
  ⟨⟨{ edge with plen := 3 }, by decide⟩, ⟨{ edge with plen := 2 }, by decide⟩, ⟨{ edge with plen := 1 }, by decide⟩⟩

/-- For PARSE, APPD and DEC: FLEN one too large; no magic, with three bytes and with the magic in the other order; a magic
with one byte too few for a trailer; a length one too large; a payload one too large for PAY; one that fills PAY and
starts at address 0. -/
theorem witness_ParseAndAppdReadTrailer :
    (∃ s : State, s.cfg.fileBytes < s.flen.toNat) ∧
    (∃ s : State, s.flen.toNat = 3 ∧ ¬ s.EndsInAppendMagic ∧ s.flen.toNat ≤ s.cfg.fileBytes) ∧
    (∃ s : State, s.flen.toNat = 4 ∧ ¬ s.EndsInAppendMagic ∧ s.flen.toNat ≤ s.cfg.fileBytes) ∧
    (∃ s : State, s.flen.toNat = 11 ∧ s.EndsInAppendMagic ∧ s.flen.toNat ≤ s.cfg.fileBytes) ∧
    (∃ s : State, s.flen.toNat = 12 ∧ s.EndsInAppendMagic ∧ s.flen.toNat ≤ s.cfg.fileBytes ∧
      HoldsLength s.fileAt (s.flen.toNat - 12) 1) ∧
    (∃ s : State, s.flen.toNat - 12 = 3 ∧ s.EndsInAppendMagic ∧ s.flen.toNat ≤ s.cfg.fileBytes ∧
      HoldsLength s.fileAt (s.flen.toNat - 12) 3 ∧ s.cfg.payBytes < 3) ∧
    ∃ s : State, s.flen.toNat - 12 = 2 ∧ s.EndsInAppendMagic ∧ s.flen.toNat ≤ s.cfg.fileBytes ∧
      HoldsLength s.fileAt (s.flen.toNat - 12) 2 ∧ s.cfg.payBytes = 2 :=
  ⟨⟨{ edge with flen := 21 }, by decide⟩, ⟨{ edge with flen := 3 }, by decide +kernel⟩,
    ⟨{ edge with file := cells [0x5A, 0xFE, 0xC0, 0xDE], flen := 4 }, by decide +kernel⟩,
    ⟨{ edge with file := cells [0, 0, 0, 0, 0, 0, 0, 0xDE, 0xC0, 0xFE, 0x5A], flen := 11 }, by decide +kernel⟩,
    ⟨{ edge with file := cells [0, 0, 0, 0, 0, 0, 0, 1, 0xDE, 0xC0, 0xFE, 0x5A], flen := 12 }, by decide +kernel⟩,
    ⟨{ edge with file := cells (trailer 3), flen := 15 }, by decide +kernel⟩,
    ⟨{ edge with file := cells (trailer 2), flen := 14 }, by decide +kernel⟩⟩

theorem witness_ValidComparesLsbMagic :
    (∃ s : State, s.cfg.bufBytes < s.blen.toNat) ∧
    (∃ s : State, s.blen.toNat ≤ s.cfg.bufBytes ∧ s.blen.toNat = 11) ∧
    ∃ s : State, s.blen.toNat ≤ s.cfg.bufBytes ∧ s.blen.toNat = 12 :=
  ⟨⟨{ edge with blen := 14 }, by decide⟩, ⟨{ edge with blen := 11 }, by decide⟩, ⟨{ edge with blen := 12 }, by decide⟩⟩

/-- SLEN one too large; a grid one pixel too large; one symbol more than the carrier has; exactly as many, beside a cell that
is none of its symbol positions. -/
theorem witness_LsbwWritesLowBits :
    (∃ s : State, s.cfg.symCells < s.slen.toNat) ∧
    (∃ s : State, s.slen.toNat ≤ s.cfg.symCells ∧ s.cfg.pixBytes < s.width.toNat * s.height.toNat * s.cfg.ch) ∧
    (∃ s : State, s.slen.toNat ≤ s.cfg.symCells ∧ s.width.toNat * s.height.toNat * s.cfg.ch ≤ s.cfg.pixBytes ∧
      3 * (s.width.toNat * s.height.toNat) < s.slen.toNat) ∧
    ∃ s : State, s.cfg.Ok ∧ s.slen.toNat ≤ s.cfg.symCells ∧
      s.width.toNat * s.height.toNat * s.cfg.ch ≤ s.cfg.pixBytes ∧
      s.slen.toNat = 3 * (s.width.toNat * s.height.toNat) ∧ 0 < s.slen.toNat ∧
      ∀ i, i < s.slen.toNat → s.symbolAddr i ≠ 54 :=
  ⟨⟨{ edge with slen := 61 }, by decide⟩, ⟨{ edge with slen := 60, width := 22, height := 1 }, by decide⟩,
    ⟨{ edge with slen := 55, width := 18, height := 1 }, by decide⟩,
    ⟨{ edge with slen := 54, width := 18, height := 1 }, by decide⟩⟩

theorem witness_LsbrReadsFirstSymbols :
    (∃ s : State, s.cfg.pixBytes < s.width.toNat * s.height.toNat * s.cfg.ch) ∧
    (∃ s : State, s.width.toNat * s.height.toNat * s.cfg.ch ≤ s.cfg.pixBytes ∧
      3 * (s.width.toNat * s.height.toNat) < s.count.toNat) ∧
    (∃ s : State, s.width.toNat * s.height.toNat * s.cfg.ch ≤ s.cfg.pixBytes ∧
      s.count.toNat ≤ 3 * (s.width.toNat * s.height.toNat) ∧ s.cfg.symCells < s.count.toNat) ∧
    ∃ s : State, s.width.toNat * s.height.toNat * s.cfg.ch ≤ s.cfg.pixBytes ∧
      s.count.toNat ≤ 3 * (s.width.toNat * s.height.toNat) ∧ s.count.toNat = s.cfg.symCells ∧ 0 < s.count.toNat :=
  ⟨⟨{ edge with width := 22, height := 1 }, by decide⟩, ⟨{ edge with count := 55, width := 18, height := 1 }, by decide⟩,
    ⟨{ edge with count := 61, width := 21, height := 1 }, by decide⟩,
    ⟨{ edge with count := 60, width := 21, height := 1 }, by decide⟩⟩

/-- For LSBX and DEC: a carrier one pixel too small for a header; no magic; the header with length 0 in exactly 48 symbol
positions; length 1 in the same carrier; length 3, one too large for PAY; length 2, which fills PAY. -/
theorem witness_LsbxExtractsPayload :
    (∃ s : State, s.width.toNat * s.height.toNat = 15 ∧ ¬ s.StartsWithLsbMagic) ∧
    (∃ s : State, s.width.toNat * s.height.toNat = 16 ∧ ¬ s.StartsWithLsbMagic) ∧
    (∃ s : State, s.StartsWithLsbMagic ∧ HoldsLength s.hiddenByte 4 0 ∧
      48 + 4 * 0 = 3 * (s.width.toNat * s.height.toNat) ∧ 0 ≤ s.cfg.payBytes) ∧
    (∃ s : State, s.StartsWithLsbMagic ∧ HoldsLength s.hiddenByte 4 1 ∧
      3 * (s.width.toNat * s.height.toNat) < 48 + 4 * 1) ∧
    (∃ s : State, s.StartsWithLsbMagic ∧ HoldsLength s.hiddenByte 4 3 ∧
      48 + 4 * 3 ≤ 3 * (s.width.toNat * s.height.toNat) ∧ s.cfg.payBytes < 3 ∧
      s.width.toNat * s.height.toNat * s.cfg.ch ≤ s.cfg.pixBytes) ∧
    ∃ s : State, s.StartsWithLsbMagic ∧ HoldsLength s.hiddenByte 4 2 ∧
      48 + 4 * 2 ≤ 3 * (s.width.toNat * s.height.toNat) ∧ s.cfg.payBytes = 2 ∧
      s.width.toNat * s.height.toNat * s.cfg.ch ≤ s.cfg.pixBytes :=
  ⟨⟨{ edge with width := 15, height := 1 }, by decide +kernel⟩,
    ⟨{ edge with width := 16, height := 1, pix := cells (List.replicate 48 0xFF) }, by decide +kernel⟩,
    ⟨{ edge with width := 16, height := 1, pix := cells (carrier 0) }, by decide +kernel⟩,
    ⟨{ edge with width := 16, height := 1, pix := cells headerOne }, by decide +kernel⟩,
    ⟨{ edge with width := 20, height := 1, pix := cells (carrier 3) }, by decide +kernel⟩,
    ⟨{ edge with width := 19, height := 1, pix := cells (carrier 2) }, by decide +kernel⟩⟩

/-- PLEN, FLEN and the sum, each one too large; the sum exactly FILE's capacity, with an image byte before the frame. -/
theorem witness_AppeAppendsFrame :
    (∃ s : State, s.cfg.payBytes < s.plen.toNat) ∧
    (∃ s : State, s.plen.toNat ≤ s.cfg.payBytes ∧ s.cfg.fileBytes < s.flen.toNat) ∧
    (∃ s : State, s.plen.toNat ≤ s.cfg.payBytes ∧ s.flen.toNat ≤ s.cfg.fileBytes ∧
      s.cfg.fileBytes < s.flen.toNat + s.plen.toNat + 12) ∧
    ∃ s : State, s.cfg.Ok ∧ s.plen.toNat ≤ s.cfg.payBytes ∧ s.flen.toNat + s.plen.toNat + 12 = s.cfg.fileBytes ∧
      0 < s.plen.toNat ∧ 0 < s.flen.toNat :=
  ⟨⟨{ edge with plen := 3 }, by decide⟩, ⟨{ edge with plen := 2, flen := 21 }, by decide⟩,
    ⟨{ edge with plen := 2, flen := 7 }, by decide⟩, ⟨{ edge with plen := 2, flen := 6 }, by decide⟩⟩

/-- MODE 2 and 3; then for MODE 0 PLEN and the grid one too large, a frame one byte too large for the carrier, and one that
fills it, with a padding symbol and a cell that is none of its symbol positions. -/
theorem witness_EncEmbedsOrAppends :
    (2 ≤ 2 ∧ 2 ≤ 3 ∧ 3 < 4) ∧ (∃ s : State, s.cfg.payBytes < s.plen.toNat) ∧
    (∃ s : State, s.plen.toNat ≤ s.cfg.payBytes ∧ s.cfg.pixBytes < s.width.toNat * s.height.toNat * s.cfg.ch) ∧
    (∃ s : State, s.plen.toNat ≤ s.cfg.payBytes ∧ s.width.toNat * s.height.toNat * s.cfg.ch ≤ s.cfg.pixBytes ∧
      s.width.toNat * s.height.toNat * 6 / 8 < s.plen.toNat + 12) ∧
    ∃ s : State, s.cfg.Ok ∧ s.plen.toNat ≤ s.cfg.payBytes ∧
      s.width.toNat * s.height.toNat * s.cfg.ch ≤ s.cfg.pixBytes ∧
      s.plen.toNat + 12 = s.width.toNat * s.height.toNat * 6 / 8 ∧ 0 < s.plen.toNat ∧
      4 * (s.plen.toNat + 12) ≤ 53 ∧ 53 < 3 * ((4 * (s.plen.toNat + 12) + 2) / 3) ∧
      ∀ i, i < 3 * ((4 * (s.plen.toNat + 12) + 2) / 3) → s.symbolAddr i ≠ 54 :=
  ⟨by decide, ⟨{ edge with plen := 3 }, by decide⟩, ⟨{ edge with plen := 2, width := 22, height := 1 }, by decide⟩,
    ⟨{ edge with plen := 2, width := 18, height := 1 }, by decide⟩,
    ⟨{ edge with plen := 1, width := 18, height := 1 }, by decide⟩⟩

/-- DEC: FLEN one too large; a grid one pixel too large; a magic with one byte too few; a length one too large; a payload
one too large for PAY, and one that fills it; neither magic; and no trailer beside each carrier of
`witness_LsbxExtractsPayload`. -/
theorem witness_DecTriesTrailerThenPixels :
    (∃ s : State, s.cfg.fileBytes < s.flen.toNat) ∧
    (∃ s : State, s.flen.toNat ≤ s.cfg.fileBytes ∧ s.cfg.pixBytes < s.width.toNat * s.height.toNat * s.cfg.ch) ∧
    (∃ s : State, OperandsFit s ∧ s.EndsInAppendMagic ∧ s.flen.toNat = 11) ∧
    (∃ s : State, OperandsFit s ∧ s.EndsInAppendMagic ∧ s.flen.toNat = 12 ∧ HoldsLength s.fileAt 0 1) ∧
    (∃ s : State, OperandsFit s ∧ s.EndsInAppendMagic ∧ s.flen.toNat = 15 ∧ HoldsLength s.fileAt 3 3 ∧
      s.cfg.payBytes < 3) ∧
    (∃ s : State, OperandsFit s ∧ s.EndsInAppendMagic ∧ s.flen.toNat = 14 ∧ HoldsLength s.fileAt 2 2 ∧
      s.cfg.payBytes = 2) ∧
    (∃ s : State, OperandsFit s ∧ ¬ s.EndsInAppendMagic ∧ ¬ s.StartsWithLsbMagic) ∧
    (∃ s : State, OperandsFit s ∧ ¬ s.EndsInAppendMagic ∧ s.StartsWithLsbMagic ∧ HoldsLength s.hiddenByte 4 1 ∧
      3 * (s.width.toNat * s.height.toNat) < 48 + 4 * 1) ∧
    (∃ s : State, OperandsFit s ∧ ¬ s.EndsInAppendMagic ∧ s.StartsWithLsbMagic ∧ HoldsLength s.hiddenByte 4 3 ∧
      48 + 4 * 3 ≤ 3 * (s.width.toNat * s.height.toNat) ∧ s.cfg.payBytes < 3) ∧
    ∃ s : State, OperandsFit s ∧ ¬ s.EndsInAppendMagic ∧ s.StartsWithLsbMagic ∧ HoldsLength s.hiddenByte 4 2 ∧
      48 + 4 * 2 ≤ 3 * (s.width.toNat * s.height.toNat) ∧ s.cfg.payBytes = 2 :=
  ⟨⟨{ edge with flen := 21 }, by decide⟩, ⟨{ edge with flen := 20, width := 22, height := 1 }, by decide⟩,
    ⟨{ edge with file := cells [0, 0, 0, 0, 0, 0, 0, 0xDE, 0xC0, 0xFE, 0x5A], flen := 11 }, by decide +kernel⟩,
    ⟨{ edge with file := cells [0, 0, 0, 0, 0, 0, 0, 1, 0xDE, 0xC0, 0xFE, 0x5A], flen := 12 }, by decide +kernel⟩,
    ⟨{ edge with file := cells (trailer 3), flen := 15 }, by decide +kernel⟩,
    ⟨{ edge with file := cells (trailer 2), flen := 14 }, by decide +kernel⟩, ⟨edge, by decide +kernel⟩,
    ⟨{ edge with width := 16, height := 1, pix := cells headerOne }, by decide +kernel⟩,
    ⟨{ edge with width := 20, height := 1, pix := cells (carrier 3) }, by decide +kernel⟩,
    ⟨{ edge with width := 19, height := 1, pix := cells (carrier 2) }, by decide +kernel⟩⟩

/-- A file with a trailer, decoded. -/
theorem witness_TrailerBeatsPixels :
    ({ edge with file := cells (trailer 2), flen := 14 } : State).EndsInAppendMagic ∧
      (14#64).toNat ≤ tight.fileBytes ∧ 0 * 0 * tight.ch ≤ tight.pixBytes ∧
      ∃ t, exec .dec { edge with file := cells (trailer 2), flen := 14 } = .next t ∧ statusIs 0 true 1 t = true :=
  ⟨by decide +kernel, by decide, by decide, exists_of_onNext (by decide +kernel)⟩

/-- A payload of one byte, an empty file, a carrier it fills. -/
def ready : State :=
  { edge with width := 18, height := 1, pix := cells (List.replicate 54 0x80), pay := cells [0x5A, 0x00], plen := 1 }

theorem ready_inv : ready.Inv := by decide +kernel

theorem witness_AppendRoundTrip :
    ready.cfg.Ok ∧ ready.width.toNat * ready.height.toNat * ready.cfg.ch ≤ ready.cfg.pixBytes ∧
      ∃ t, exec (.enc 1) ready = .next t ∧ statusIs 0 false 0 t = true :=
  ⟨by decide, by decide, exists_of_onNext (by decide +kernel)⟩

theorem witness_LsbRoundTrip :
    ready.cfg.Ok ∧ ready.flen.toNat ≤ ready.cfg.fileBytes ∧ ¬ ready.EndsInAppendMagic ∧
      ∃ t, exec (.enc 0) ready = .next t ∧ statusIs 0 false 0 t = true :=
  ⟨by decide, by decide, by decide, exists_of_onNext (by decide +kernel)⟩

theorem witness_PipelineRoundTrip : ∃ s1 s2 s3, ready.cfg.Ok ∧ ready.padf = 3 ∧
    exec .bldl ready = .next s1 ∧ s1.err = 0 ∧ exec .ser s1 = .next s2 ∧ s2.err = 0 ∧
    exec .lsbw s2 = .next s3 ∧ s3.err = 0 :=
  ⟨after (exec .bldl ready) ready, after (exec .ser (after (exec .bldl ready) ready)) ready, _, by decide, by decide,
    eq_after (by decide +kernel), by decide +kernel, eq_after (by decide +kernel), by decide +kernel,
    eq_after (s := ready) (by decide +kernel), by decide +kernel⟩

/-- An error by a command and by an illegal word. -/
theorem witness_FailingCommandChangesOnlyStatus :
    (∃ t, exec .valid edge = .next t ∧ (t.err != 0) = true) ∧ ∃ t, edge.runWord 0 = .next t ∧ (t.err != 0) = true :=
  ⟨exists_of_onNext (p := fun t => t.err != 0) (by decide +kernel),
    exists_of_onNext (p := fun t => t.err != 0) (by decide +kernel)⟩

/-- A command of each kind that answers; a decoder that returns no payload. Also for `EveryCommandLeavesLegalStatus`. -/
theorem witness_CommandsWriteOnlyTheirColumns :
    (∀ i ∈ [Instr.ser, .des, .bldl, .blda, .valid, .lsbw, .lsbr, .appe, .enc 0, .enc 1, .enc 2, .dec],
      ∃ t, exec i ready = .next t ∧ true = true) ∧
    ∀ i ∈ [Instr.parse, .appd, .lsbx], ∃ t, exec i ready = .next t ∧ (t.flag == false) = true :=
  ⟨fun i hi => exists_of_onNext (p := fun _ => true) ((by decide +kernel : ∀ i ∈ [Instr.ser, .des, .bldl, .blda, .valid,
      .lsbw, .lsbr, .appe, .enc 0, .enc 1, .enc 2, .dec], onNext (exec i ready) (fun _ => true) = true) i hi),
    fun i hi => exists_of_onNext (p := fun t => t.flag == false) ((by decide +kernel :
      ∀ i ∈ [Instr.parse, .appd, .lsbx], onNext (exec i ready) (fun t => t.flag == false) = true) i hi)⟩

/-- A well-formed command with marked errors, and one that answers. -/
theorem witness_ErrorMatrix :
    (Instr.enc 3).wellFormed = true ∧ 3#4 ∈ markedErrors (.enc 3) ∧
      ∃ t, exec (.enc 3) ready = .next t ∧ statusIs 3 false 0 t = true :=
  ⟨by decide, by decide, exists_of_onNext (by decide +kernel)⟩

theorem witness_CompositesIgnoreBuffers :
    (Instr.dec ∈ [Instr.lsbx, .appe, .dec] ∧ ∃ t, exec .dec ready = .next t ∧ true = true) ∧
      ∃ t, exec (.enc 0) ready = .next t ∧ statusIs 0 false 0 t = true :=
  ⟨⟨by decide, exists_of_onNext (p := fun _ => true) (by decide +kernel)⟩, exists_of_onNext (by decide +kernel)⟩

/-- 6 by 3 in place of 18 by 1. -/
theorem witness_OnlyThePixelCountMatters :
    (6#32).toNat * (3#32).toNat = ready.width.toNat * ready.height.toNat ∧
      ∃ t, exec (.enc 0) ready = .next t ∧ statusIs 0 false 0 t = true :=
  ⟨by decide, exists_of_onNext (by decide +kernel)⟩

/-- The channels above the third, where there are four. -/
theorem witness_UpperBitsAndAlphaUntouched :
    Config.Ok { tight with ch := 4 } ∧ 3 ≤ 3 ∧ 3 < 4 ∧
      ∃ t, exec .lsbw { edge with
        cfg := { tight with ch := 4 }, width := 1, height := 1,
        pix := cells [0xFF, 0xFF, 0xFF, 0xFF], sym := cells [0, 0, 0], slen := 3 } = .next t ∧ statusIs 0 false 0 t = true :=
  ⟨by decide, by decide, by decide, exists_of_onNext (by decide +kernel)⟩

theorem witness_ReissueIsIdempotent :
    ready.Inv ∧ Instr.enc 0 ≠ .appe ∧ Instr.enc 0 ≠ .enc 1 ∧
      ∃ t, exec (.enc 0) ready = .next t ∧ statusIs 0 false 0 t = true :=
  ⟨ready_inv, by decide, by decide, exists_of_onNext (by decide +kernel)⟩

/-- An append that succeeds, one that fails, and another command. -/
theorem witness_OnlyAppendAdvancesFlen :
    ready.cfg.Ok ∧ (∃ t, exec .appe ready = .next t ∧ statusIs 0 false 0 t = true) ∧
      (∃ t, exec .appe { ready with plen := 3 } = .next t ∧ statusIs 6 false 0 t = true) ∧
      ∃ t, exec .bldl ready = .next t ∧ statusIs 0 false 0 t = true :=
  ⟨by decide, exists_of_onNext (by decide +kernel), exists_of_onNext (by decide +kernel),
    exists_of_onNext (by decide +kernel)⟩

theorem witness_StepKeepsInvariant :
    ({ ready with inputs := [.command 0x0000000C] } : State).Inv ∧
      ∃ t, step { ready with inputs := [.command 0x0000000C] } = .next t ∧ statusIs 0 false 0 t = true :=
  ⟨ready_inv, exists_of_onNext (by decide +kernel)⟩

/-- Actions on the last register, the last cell and the widest values. -/
theorem witness_LegalSessionsNeverStop :
    ({ ready with inputs := [.writeReg 9 0xFFFFFFFFFFFFFFFF, .writeReg 8 0xFFFFFFFF, .writeCell .pay 1 0xFF,
      .readCell .sym 59, .readReg 9, .reset] } : State).Inv ∧
    ({ ready with inputs := [.writeReg 9 0xFFFFFFFFFFFFFFFF, .writeReg 8 0xFFFFFFFF, .writeCell .pay 1 0xFF,
      .readCell .sym 59, .readReg 9, .reset] } : State).InputsLegal := by
  refine ⟨ready_inv, fun act h => ?_⟩
  simp only [List.mem_cons, List.not_mem_nil, or_false] at h
  rcases h with rfl | rfl | rfl | rfl | rfl | rfl <;> simp [HostAction.Legal, narrowRegs, ready, edge, State.atReset, tight,
    Config.capacity]

end Sys2Proof.Tests
end

/-! PROOFS. The invariant of a state: each update of the state keeps it, so each command, each host action and each step
does (00_scope.md R9; 10_state.md R16; 20_memory.md R49, R50). -/

namespace Sys2Proof.Machine

/-! ### One update of the state -/

section
variable {s : State} {a : Nat}

theorem State.Inv.setStatus (h : s.Inv) {st : Word} (hst : LegalStatus st) : ({ s with status := st } : State).Inv := by
  obtain ⟨hcfg, hwf, hwithin, -⟩ := h
  exact ⟨hcfg, hwf, hwithin, hst⟩

theorem State.Inv.setPix (h : s.Inv) {m : List Host.Cell} (hm : Memory.wf m) (hcap : Memory.within s.cfg.pixBytes m) :
    ({ s with pix := m } : State).Inv := by
  obtain ⟨hcfg, ⟨-, hpay, hbuf, hsym, hfile⟩, ⟨-, cpay, cbuf, csym, cfile⟩, hst⟩ := h
  exact ⟨hcfg, ⟨hm, hpay, hbuf, hsym, hfile⟩, ⟨hcap, cpay, cbuf, csym, cfile⟩, hst⟩

theorem State.Inv.writePay (h : s.Inv) {vs : List Byte} (fits : a + vs.length ≤ s.cfg.payBytes) :
    ({ s with pay := Memory.write s.pay a vs } : State).Inv := by
  obtain ⟨hcfg, ⟨hpix, hpay, hbuf, hsym, hfile⟩, ⟨cpix, cpay, cbuf, csym, cfile⟩, hst⟩ := h
  exact ⟨hcfg, ⟨hpix, Memory.wf_write hpay a vs, hbuf, hsym, hfile⟩,
    ⟨cpix, Memory.within_write cpay fits, cbuf, csym, cfile⟩, hst⟩

theorem State.Inv.writeBuf (h : s.Inv) {vs : List Byte} (fits : a + vs.length ≤ s.cfg.bufBytes) :
    ({ s with buf := Memory.write s.buf a vs } : State).Inv := by
  obtain ⟨hcfg, ⟨hpix, hpay, hbuf, hsym, hfile⟩, ⟨cpix, cpay, cbuf, csym, cfile⟩, hst⟩ := h
  exact ⟨hcfg, ⟨hpix, hpay, Memory.wf_write hbuf a vs, hsym, hfile⟩,
    ⟨cpix, cpay, Memory.within_write cbuf fits, csym, cfile⟩, hst⟩

theorem State.Inv.writeSym (h : s.Inv) {vs : List Symbol} (fits : a + vs.length ≤ s.cfg.symCells) :
    ({ s with sym := Memory.write s.sym a vs } : State).Inv := by
  obtain ⟨hcfg, ⟨hpix, hpay, hbuf, hsym, hfile⟩, ⟨cpix, cpay, cbuf, csym, cfile⟩, hst⟩ := h
  exact ⟨hcfg, ⟨hpix, hpay, hbuf, Memory.wf_write hsym a vs, hfile⟩,
    ⟨cpix, cpay, cbuf, Memory.within_write csym fits, cfile⟩, hst⟩

theorem State.Inv.writeFile (h : s.Inv) {vs : List Byte} (fits : a + vs.length ≤ s.cfg.fileBytes) :
    ({ s with file := Memory.write s.file a vs } : State).Inv := by
  obtain ⟨hcfg, ⟨hpix, hpay, hbuf, hsym, hfile⟩, ⟨cpix, cpay, cbuf, csym, cfile⟩, hst⟩ := h
  exact ⟨hcfg, ⟨hpix, hpay, hbuf, hsym, Memory.wf_write hfile a vs⟩,
    ⟨cpix, cpay, cbuf, csym, Memory.within_write cfile fits⟩, hst⟩

/-- The loop of `write` keeps the invariant when the symbols fit the carrier and the grid fits PIX: with CH at least 3,
no symbol position lies outside PIX. -/
theorem State.Inv.writeSymbolsFrom (h : s.Inv) {i : Nat} {ss : List Symbol} (fits : i + ss.length ≤ s.nsym)
    (grid : s.npix * s.cfg.ch ≤ s.cfg.pixBytes) : (s.writeSymbolsFrom i ss).Inv := by
  have ⟨⟨hch, _⟩, ⟨wpix, _⟩, ⟨cpix, _⟩, _⟩ := h
  rw [State.writeSymbolsFrom_eq]
  exact h.setPix (s.wf_writeSymbolsFrom i ss wpix) (s.within_writeSymbolsFrom hch i ss grid fits cpix)

theorem State.Inv.setCell (h : s.Inv) {sp : Space} (v : Byte) (ha : a < s.cfg.capacity sp) : (s.setCell sp a v).Inv := by
  cases sp with
  | pix =>
    have ⟨_, ⟨wpix, _⟩, ⟨cpix, _⟩, _⟩ := h
    exact h.setPix (Memory.wf_write wpix a [v]) (Memory.within_write cpix ha)
  | pay => exact h.writePay (vs := [v]) ha
  | buf => exact h.writeBuf (vs := [v]) ha
  | sym => exact h.writeSym (vs := [v.setWidth 2]) ha
  | file => exact h.writeFile (vs := [v]) ha

end

theorem setCell_cfg (s : State) (sp : Space) (a : Nat) (v : Byte) : (s.setCell sp a v).cfg = s.cfg := by
  cases sp <;> rfl

/-- The state just out of reset meets the invariant exactly when its configuration meets its constraints. -/
theorem inv_atReset_iff (cfg : Config) (epoch : Nat) (inputs : List HostAction) (readback : Option (BitVec 64)) :
    (State.atReset cfg epoch inputs readback).Inv ↔ cfg.Ok := by
  have hst : LegalStatus 0#32 := by decide
  exact ⟨fun h => h.1, fun h => ⟨h, by simp [State.atReset], by simp [State.atReset], hst⟩⟩

/-! ### Commands -/

theorem Ended.cfg_eq {s t : State} {i : Instr} (h : Ended s i t) : t.cfg = s.cfg := by
  cases h with
  | pix => exact State.writeSymbolsFrom_cfg ..
  | err | sym | buf | pay | notFound | valid | file => rfl

/-- Whatever way a command ends, what it wrote lies within its space's capacity and STATUS is legal. -/
theorem Ended.inv {s t : State} {i : Instr} (h : Ended s i t) (hs : s.Inv) : t.Inv := by
  have legal0 : LegalStatus 0#32 := by decide
  cases h with
  | err _ e _ raised => exact hs.setStatus (legalStatus_error raised)
  | sym _ ss _ fits => exact (hs.writeSym (a := 0) (by simpa using fits)).setStatus legal0
  | buf _ bs _ fits => exact (hs.writeBuf (a := 0) (by simpa using fits)).setStatus legal0
  | pay _ q path _ _ fits =>
    exact (hs.writePay (a := 0) (by simpa using fits)).setStatus (legalStatus_done (by simp))
  | notFound => exact hs.setStatus legal0
  | valid flag => exact hs.setStatus (legalStatus_done fun _ => rfl)
  | pix _ ss _ fits grid => exact (hs.writeSymbolsFrom (i := 0) (by simpa using fits) grid).setStatus legal0
  | file _ bs _ _ fits => exact (hs.writeFile fits).setStatus legal0

theorem runWord_keeps_inv {s t : State} {w : Word} (hs : s.Inv) (h : s.runWord w = .next t) :
    t.Inv ∧ t.cfg = s.cfg := by
  unfold State.runWord at h
  split at h
  · next i _ =>
    have hend := ended_of_exec i s t h
    exact ⟨hend.inv hs, hend.cfg_eq⟩
  · cases h
    exact ⟨hs.setStatus (legalStatus_error (by simp)), rfl⟩

/-! ### Host actions -/

theorem next_of_write32 {v : BitVec 64} {k : Word → Result} {t : State} (h : write32 v k = .next t) :
    k (v.setWidth 32) = .next t := by
  unfold write32 at h
  split at h
  · exact h
  · cases h

/-- A register write that is answered runs a command (CMD), or changes at most registers 2 to 9 (10_state.md R14 to R16). -/
theorem hostWriteReg_cases {s t : State} {reg : Nat} {v : BitVec 64} (h : s.hostWriteReg reg v = .next t) :
    (reg = 0 ∧ s.runWord (v.setWidth 32) = .next t) ∨
      t = { s with
        width := t.width, height := t.height, plen := t.plen, blen := t.blen, slen := t.slen, flen := t.flen,
        padf := t.padf, count := t.count } := by
  unfold State.hostWriteReg at h
  match reg with
  | 0 => exact .inl ⟨rfl, next_of_write32 h⟩
  | 2 | 3 | 8 => cases next_of_write32 h; exact .inr rfl
  | 1 | 4 | 5 | 6 | 7 | 9 => cases h; exact .inr rfl
  | _ + 10 => cases h

theorem hostReadReg_eq_next {s t : State} {reg : Nat} (h : s.hostReadReg reg = .next t) :
    ∃ v, s.regValue reg = some v ∧ t = { s with readback := some v } := by
  unfold State.hostReadReg at h
  split at h
  · next v hv => cases h; exact ⟨v, hv, rfl⟩
  · cases h

theorem hostWriteCell_eq_next {s t : State} {sp : Space} {a : Nat} {v : Byte} (h : s.hostWriteCell sp a v = .next t) :
    a < s.cfg.capacity sp ∧ t = s.setCell sp a v := by
  unfold State.hostWriteCell at h
  split at h
  · next ha => cases h; exact ⟨ha, rfl⟩
  · cases h

theorem hostReadCell_eq_next {s t : State} {sp : Space} {a : Nat} (h : s.hostReadCell sp a = .next t) :
    a < s.cfg.capacity sp ∧ t = { s with readback := some (s.cellValue sp a) } := by
  unfold State.hostReadCell at h
  split at h
  · next ha => cases h; exact ⟨ha, rfl⟩
  · cases h

theorem hostAct_keeps_inv {s t : State} {act : HostAction} (hs : s.Inv) (h : s.hostAct act = .next t) :
    t.Inv ∧ t.cfg = s.cfg := by
  cases act with
  | writeReg reg v =>
    obtain ⟨-, hrun⟩ | ht := hostWriteReg_cases h
    · exact runWord_keeps_inv hs hrun
    · rw [ht]; exact ⟨hs, rfl⟩
  | readReg reg =>
    obtain ⟨v, -, rfl⟩ := hostReadReg_eq_next h
    exact ⟨hs, rfl⟩
  | writeCell sp a v =>
    obtain ⟨ha, rfl⟩ := hostWriteCell_eq_next h
    exact ⟨hs.setCell v ha, setCell_cfg s sp a v⟩
  | readCell sp a =>
    obtain ⟨-, rfl⟩ := hostReadCell_eq_next h
    exact ⟨hs, rfl⟩
  | reset =>
    cases h
    exact ⟨(inv_atReset_iff ..).2 hs.1, rfl⟩

/-! ### One step -/

/-- A step idles on an empty queue, or performs the oldest action on the state without it (20_memory.md R52). -/
theorem step_cases {s t : State} (h : step s = .next t) :
    (s.inputs = [] ∧ t = s) ∨
      ∃ act rest, s.inputs = act :: rest ∧ ({ s with inputs := rest } : State).hostAct act = .next t := by
  unfold step at h
  split at h
  · next hin => cases h; exact .inl ⟨hin, rfl⟩
  · next act rest hin => exact .inr ⟨act, rest, hin, h⟩

/-- Settles O47: a step idles or performs one host action, whose writes all lie within the capacities. The invariant does
not speak of the queue, so it holds of the state the action starts from. -/
theorem stepKeepsInvariant : Obligations.StepKeepsInvariant := by
  intro s t hs h
  obtain ⟨-, rfl⟩ | ⟨act, rest, -, hact⟩ := step_cases h
  · exact ⟨hs, rfl⟩
  · exact hostAct_keeps_inv (s := { s with inputs := rest }) hs hact

end Sys2Proof.Machine

/-! PROOFS. The state as the host sees it and as the commands leave it: the registers and cells the host reads and
writes, what each command may write, what it may not read, and the staged round trip (10_state.md). -/

namespace Sys2Proof.Machine

/-! ### A step, by the action at the head of the queue -/

theorem step_of_inputs {s : State} {act : HostAction} {rest : List HostAction} (h : s.inputs = act :: rest) :
    step s = ({ s with inputs := rest } : State).hostAct act := by
  rw [step, h]

theorem write32_of_lt {v : BitVec 64} (h : v.toNat < 2 ^ 32) (k : Word → Result) :
    write32 v k = k (v.setWidth 32) := if_pos h

theorem write32_setWidth (w : Word) (k : Word → Result) : write32 (w.setWidth 64) k = k w := by
  have hlt : (w.setWidth 64).toNat < 2 ^ 32 := by simp; omega
  have hw : (w.setWidth 64).setWidth 32 = w := by simp
  rw [write32_of_lt hlt, hw]

/-- A host write of a word to CMD runs that word (10_state.md R15). -/
theorem step_of_command {s : State} {w : Word} {rest : List HostAction}
    (h : s.inputs = .writeReg 0 (w.setWidth 64) :: rest) :
    step s = ({ s with inputs := rest } : State).runWord w :=
  (step_of_inputs h).trans (write32_setWidth w _)

/-- Settles O7: the write to CMD reaches `runWord`, which runs the command the word decodes to. -/
theorem stepRunsDecodedCommand : Obligations.StepRunsDecodedCommand := by
  intro s w i rest hin hdec
  rw [step_of_command hin, State.runWord, hdec]

/-! ### Registers -/

/-- Settles O8: the reset state lists these values, and CMD reads 0 whatever the state. -/
theorem resetRegisterValues : Obligations.ResetRegisterValues :=
  ⟨by decide, by decide, fun _ => rfl⟩

/-- Settles O10: the arms of CMD and STATUS write nothing but what the read returns. -/
theorem cmdReadsZeroStatusIsReadOnly : Obligations.CmdReadsZeroStatusIsReadOnly :=
  fun _ _ _ => ⟨step_of_inputs, step_of_inputs, step_of_inputs⟩

/-- `s` with the RW register `reg` holding `v`, cut to the register's width (10_state.md R14). -/
def State.withReg (s : State) (reg : Nat) (v : BitVec 64) : State :=
  match reg with
  | 2 => { s with width := v.setWidth 32 }
  | 3 => { s with height := v.setWidth 32 }
  | 4 => { s with plen := v }
  | 5 => { s with blen := v }
  | 6 => { s with slen := v }
  | 7 => { s with flen := v }
  | 8 => { s with padf := v.setWidth 32 }
  | 9 => { s with count := v }
  | _ => s

section
variable (s : State) {reg : Nat} {v : BitVec 64}

/-- Only registers 2 to 9 can differ. -/
theorem withReg_frame : s.withReg reg v = { s with
    width := (s.withReg reg v).width, height := (s.withReg reg v).height, plen := (s.withReg reg v).plen,
    blen := (s.withReg reg v).blen, slen := (s.withReg reg v).slen, flen := (s.withReg reg v).flen,
    padf := (s.withReg reg v).padf, count := (s.withReg reg v).count } := by
  unfold State.withReg
  split <;> rfl

@[simp] theorem withReg_status : (s.withReg reg v).status = s.status := by rw [withReg_frame]
@[simp] theorem withReg_pix : (s.withReg reg v).pix = s.pix := by rw [withReg_frame]
@[simp] theorem withReg_pay : (s.withReg reg v).pay = s.pay := by rw [withReg_frame]
@[simp] theorem withReg_buf : (s.withReg reg v).buf = s.buf := by rw [withReg_frame]
@[simp] theorem withReg_sym : (s.withReg reg v).sym = s.sym := by rw [withReg_frame]
@[simp] theorem withReg_file : (s.withReg reg v).file = s.file := by rw [withReg_frame]
@[simp] theorem withReg_cfg : (s.withReg reg v).cfg = s.cfg := by rw [withReg_frame]
@[simp] theorem withReg_epoch : (s.withReg reg v).epoch = s.epoch := by rw [withReg_frame]
@[simp] theorem withReg_inputs : (s.withReg reg v).inputs = s.inputs := by rw [withReg_frame]
@[simp] theorem withReg_readback : (s.withReg reg v).readback = s.readback := by rw [withReg_frame]

theorem regValue_withReg_ne {r : Nat} (h : r ≠ reg) : (s.withReg reg v).regValue r = s.regValue r := by
  unfold State.withReg
  split <;> (unfold State.regValue; split) <;> simp_all

theorem hostWriteReg_eq_withReg (hlo : 2 ≤ reg) (hhi : reg ≤ 9) (hfit : reg ∈ [2, 3, 8] → v.toNat < 2 ^ 32) :
    s.hostWriteReg reg v = .next (s.withReg reg v) := by
  match reg with
  | 2 | 3 | 8 => simp only [State.hostWriteReg, State.withReg, write32_of_lt (hfit (by decide))]
  | 4 | 5 | 6 | 7 | 9 => rfl

theorem regValue_withReg_self (hlo : 2 ≤ reg) (hhi : reg ≤ 9) (hfit : reg ∈ [2, 3, 8] → v.toNat < 2 ^ 32) :
    (s.withReg reg v).regValue reg = some v := by
  have hnarrow (h : v.toNat < 2 ^ 32) : (v.setWidth 32).setWidth 64 = v :=
    BitVec.eq_of_toNat_eq (by simp; omega)
  match reg with
  | 2 | 3 | 8 => exact congrArg some (hnarrow (hfit (by decide)))
  | 4 | 5 | 6 | 7 | 9 => rfl

end

theorem hostReadReg_of_regValue {s : State} {reg : Nat} {v : BitVec 64} (h : s.regValue reg = some v) :
    s.hostReadReg reg = .next { s with readback := some v } := by
  rw [State.hostReadReg, h]

/-- Settles O11: the write leaves `withReg`, whose register the read then returns. -/
theorem rwRegistersReadBack : Obligations.RwRegistersReadBack := by
  intro s reg v rest hlo hhi hfit hin
  let s0 : State := { s with inputs := .readReg reg :: rest }
  have hwrite : step s = .next (s0.withReg reg v) :=
    (step_of_inputs hin).trans (hostWriteReg_eq_withReg s0 hlo hhi hfit)
  have hin' : (s0.withReg reg v).inputs = .readReg reg :: rest := withReg_inputs s0
  have hread : step (s0.withReg reg v) = .next { s0.withReg reg v with inputs := rest, readback := some v } :=
    (step_of_inputs hin').trans (hostReadReg_of_regValue (regValue_withReg_self s0 hlo hhi hfit))
  exact ⟨s0.withReg reg v, hwrite, hread, hin', by simp [s0], by simp [s0], by simp [s0], by simp [s0], by simp [s0],
    fun r hr => regValue_withReg_ne s0 hr⟩

/-- Settles O15: no register from 10 up has an arm, and the capacity test fails. -/
theorem hostAccessOutsideIsRefused : Obligations.HostAccessOutsideIsRefused := by
  intro s rest reg a sp v b hreg ha
  obtain ⟨k, rfl⟩ := Nat.exists_eq_add_of_le' hreg
  refine ⟨fun h => ?_, fun h => ?_, fun h => ?_, fun h => ?_⟩ <;> rw [step_of_inputs h]
  · rfl
  · rfl
  · exact if_neg (Nat.not_lt.2 ha)
  · exact if_neg (Nat.not_lt.2 ha)

/-- Settles O48: the standard configuration meets its constraints. -/
theorem resetMeetsInvariant : Obligations.ResetMeetsInvariant :=
  (inv_atReset_iff ..).2 (by decide)

/-! ### Cells -/

/-- A byte cell written reads as its value. -/
theorem cellValue_setCell_self (s : State) {sp : Space} (hsp : sp ≠ .sym) (a : Nat) (v : Byte) :
    (s.setCell sp a v).cellValue sp a = v.setWidth 64 := by
  cases sp with
  | sym => exact absurd rfl hsp
  | pix | pay | buf | file => exact congrArg (BitVec.setWidth 64) (Memory.read_write_self ..)

/-- Another cell of the same space, and every cell of another space, keeps its value. -/
theorem cellValue_setCell_ne (s : State) {sp sp' : Space} {a a' : Nat} (v : Byte) (h : (sp', a') ≠ (sp, a)) :
    (s.setCell sp a v).cellValue sp' a' = s.cellValue sp' a' := by
  by_cases hsp : sp' = sp
  · have ha : a' ≠ a := fun ha => h (by rw [hsp, ha])
    cases hsp
    cases sp <;> exact congrArg (BitVec.setWidth 64) (Memory.read_write_ne _ _ _ ha)
  · cases sp <;> cases sp' <;> simp_all [State.setCell, State.cellValue, State.pixAt, State.payAt, State.bufAt,
      State.symAt, State.fileAt]

/-- A host write of a cell below the capacity is `setCell` (10_state.md R31). -/
theorem step_of_writeCell {s : State} {sp : Space} {a : Nat} {v : Byte} {rest : List HostAction}
    (ha : a < s.cfg.capacity sp) (h : s.inputs = .writeCell sp a v :: rest) :
    step s = .next (({ s with inputs := rest } : State).setCell sp a v) :=
  (step_of_inputs h).trans (if_pos ha)

/-- Settles O12: the write is `setCell`, which every read of another cell ignores. -/
theorem hostByteWriteStoresOneCell : Obligations.HostByteWriteStoresOneCell := by
  intro s sp a v rest hsp ha hin
  refine ⟨_, step_of_writeCell ha hin, cellValue_setCell_self _ hsp a v, fun sp' a' h => ?_, ?_⟩
  · exact cellValue_setCell_ne { s with inputs := rest } v h
  · cases sp with
    | sym => exact absurd rfl hsp
    | pix | pay | buf | file => rfl

/-- Settles O13: the write is `setCell`, which cuts the value to a symbol and writes SYM at one address. -/
theorem hostSymbolWriteKeepsLowTwoBits : Obligations.HostSymbolWriteKeepsLowTwoBits := by
  intro s a v rest ha hin
  exact ⟨_, step_of_writeCell ha hin, Memory.read_write_self .., fun b hb => Memory.read_write_ne _ _ _ hb, rfl⟩

/-! ### What a command may write -/

theorem writesAtMost_status (i : Instr) (s : State) (w : Word) : WritesAtMost i s { s with status := w } := by
  unfold WritesAtMost
  split <;> rfl

theorem Ended.writesAtMost {s t : State} {i : Instr} (h : Ended s i t) : WritesAtMost i s t := by
  cases h with
  | err | notFound | valid => exact writesAtMost_status ..
  | sym _ ss hi => obtain rfl | rfl := hi <;> rfl
  | buf _ bs hi => obtain rfl | rfl | rfl := hi <;> rfl
  | pay _ q path _ hi =>
    simp only [List.mem_cons, List.not_mem_nil, or_false] at hi
    obtain rfl | rfl | rfl | rfl := hi <;> rfl
  | pix _ ss hi =>
    rw [State.writeSymbolsFrom_eq]
    obtain rfl | rfl := hi <;> rfl
  | file _ bs hi => obtain rfl | rfl := hi <;> rfl

/-- A command that ends with FLAG 0 has returned no payload. -/
theorem Ended.pay_eq_of_flag_eq_false {s t : State} {i : Instr} (h : Ended s i t)
    (hf : t.flag = false) : t.pay = s.pay ∧ t.plen = s.plen := by
  cases h with
  | pay _ q path => exact absurd hf (by simp [State.flag])
  | pix => exact ⟨State.writeSymbolsFrom_pay .., State.writeSymbolsFrom_plen ..⟩
  | err | sym | buf | notFound | valid | file => exact ⟨rfl, rfl⟩

/-- Settles O37: each of the ends in `Ended` writes one command's columns, and a payload is returned with FLAG 1. -/
theorem commandsWriteOnlyTheirColumns : Obligations.CommandsWriteOnlyTheirColumns := by
  intro i s t h
  have hend := ended_of_exec i s t h
  exact ⟨hend.writesAtMost, fun _ => hend.pay_eq_of_flag_eq_false⟩

theorem Ended.legalStatus {s t : State} {i : Instr} (h : Ended s i t) : LegalStatus t.status := by
  have legal0 : LegalStatus 0#32 := by decide
  cases h with
  | err _ e _ raised => exact legalStatus_error raised
  | pay => exact legalStatus_done (by simp)
  | valid => exact legalStatus_done fun _ => rfl
  | sym | buf | notFound | pix | file => exact legal0

/-- Settles O39: every way a command can end writes STATUS by `errorStatus` or `doneStatus`. -/
theorem everyCommandLeavesLegalStatus : Obligations.EveryCommandLeavesLegalStatus :=
  fun i s t h => (ended_of_exec i s t h).legalStatus

theorem ErrorCode.number_ne_zero (e : ErrorCode) : e.number ≠ 0 := by cases e <;> decide

/-- A successful append moves FLEN, by a sum that fits the register as it fits FILE. -/
theorem toNat_flen_appendFile {s : State} {bs : List Byte} (hcfg : s.cfg.Ok)
    (fits : s.flen.toNat + bs.length ≤ s.cfg.fileBytes) :
    (s.appendFile bs).flen.toNat = s.flen.toNat + bs.length := by
  obtain ⟨-, -, -, -, -, -, -, hfile, -⟩ := hcfg
  exact Nat.mod_eq_of_lt (Nat.lt_of_le_of_lt fits hfile)

/-- Settles O46: `Ended.file` is the only end that writes FLEN. -/
theorem onlyAppendAdvancesFlen : Obligations.OnlyAppendAdvancesFlen := by
  intro i s t hcfg h
  cases ended_of_exec i s t h with
  | file _ bs hi len fits =>
    rw [if_pos ⟨by simpa using hi, rfl⟩]
    exact (toNat_flen_appendFile hcfg fits).trans (by omega)
  | err _ e =>
    rw [err_withErrorStatus, if_neg fun h => e.number_ne_zero h.2]
  | sym _ ss hi => obtain rfl | rfl := hi <;> rfl
  | buf _ bs hi => obtain rfl | rfl | rfl := hi <;> rfl
  | pay _ q path _ hi =>
    simp only [List.mem_cons, List.not_mem_nil, or_false] at hi
    obtain rfl | rfl | rfl | rfl := hi <;> rfl
  | notFound _ hi =>
    simp only [List.mem_cons, List.not_mem_nil, or_false] at hi
    obtain rfl | rfl | rfl := hi <;> rfl
  | valid => rfl
  | pix _ ss hi => obtain rfl | rfl := hi <;> simp

/-- Settles O44: only LSBW and ENC with MODE 0 write PIX, by `insertSymbol` at symbol positions, which are channels 0
to 2. -/
theorem upperBitsAndAlphaUntouched : Obligations.UpperBitsAndAlphaUntouched := by
  intro i s t _ h
  cases ended_of_exec i s t h with
  | pix _ ss =>
    exact ⟨s.upperBits_writeSymbolsFrom 0 ss, fun p c h3 hc =>
      s.pixAt_writeSymbolsFrom_other 0 ss fun k _ => rasterAddr_ne_alpha h3 hc (0 + k)⟩
  | err | sym | buf | pay | notFound | valid | file => exact ⟨fun _ => rfl, fun _ _ _ _ => rfl⟩

/-! ### Every command ends -/

theorem exec_eq_next (i : Instr) (s : State) : ∃ t, exec i s = .next t := by
  cases i with
  | ser => obtain ⟨e, -, h⟩ | ⟨-, -, -, h⟩ := execSer_cases s <;> exact ⟨_, h⟩
  | des => obtain ⟨e, -, h⟩ | ⟨-, -, h⟩ := execDes_cases s <;> exact ⟨_, h⟩
  | bldl => obtain ⟨e, -, h⟩ | ⟨-, -, h⟩ := buildFrame_cases s buildLsbFrame <;> exact ⟨_, h⟩
  | blda => obtain ⟨e, -, h⟩ | ⟨-, -, h⟩ := buildFrame_cases s buildAppendFrame <;> exact ⟨_, h⟩
  | parse | appd => obtain ⟨e, -, h⟩ | h | ⟨n, -, -, h⟩ := trailerToPayload_cases s <;> exact ⟨_, h⟩
  | valid => obtain h | ⟨f, h⟩ := execValid_cases s <;> exact ⟨_, h⟩
  | lsbw => obtain ⟨e, -, h⟩ | ⟨-, -, -, h⟩ := execLsbw_cases s <;> exact ⟨_, h⟩
  | lsbr => obtain ⟨e, -, h⟩ | ⟨-, -, -, h⟩ := execLsbr_cases s <;> exact ⟨_, h⟩
  | lsbx => obtain ⟨e, -, h⟩ | h | ⟨n, -, h⟩ := execLsbx_cases s <;> exact ⟨_, h⟩
  | appe => obtain ⟨e, -, h⟩ | ⟨-, -, h⟩ := appendPayload_cases s <;> exact ⟨_, h⟩
  | enc m =>
    match m with
    | 0 => obtain ⟨e, -, h⟩ | ⟨-, -, -, h⟩ := embedPayload_cases s <;> exact ⟨_, h⟩
    | 1 => obtain ⟨e, -, h⟩ | ⟨-, -, h⟩ := appendPayload_cases s <;> exact ⟨_, h⟩
    | m + 2 => exact ⟨_, rfl⟩
  | dec => obtain ⟨e, -, h⟩ | ⟨n, -, h⟩ | ⟨n, -, h⟩ := execDec_cases s <;> exact ⟨_, h⟩

theorem Ended.inputs_eq {s t : State} {i : Instr} (h : Ended s i t) : t.inputs = s.inputs := by
  cases h with
  | pix => exact State.writeSymbolsFrom_inputs ..
  | err | sym | buf | pay | notFound | valid | file => rfl

/-- Settles O50: a legal word runs its command to an end, an illegal one raises `IllegalCommand`. -/
theorem everyCmdWriteIsOneStep : Obligations.EveryCmdWriteIsOneStep := by
  intro s w rest hin
  rw [step_of_command hin, State.runWord]
  split
  · next i _ =>
    obtain ⟨t, ht⟩ := exec_eq_next i { s with inputs := rest }
    have hend := ended_of_exec i _ t ht
    exact ⟨t, ht, hend.inputs_eq, hend.legalStatus⟩
  · exact ⟨_, rfl, rfl, legalStatus_error (by simp)⟩

/-! ### What a command does not read -/

/-- Settles O40. Every command overwrites STATUS with a value that does not come from it; the loop of `write` commutes
with an update of STATUS. -/
theorem noCommandReadsStatus : Obligations.NoCommandReadsStatus := by
  intro i s w
  have hloop (ss : List Symbol) :
      ({ s with status := w } : State).writeSymbolsFrom 0 ss = { s.writeSymbolsFrom 0 ss with status := w } :=
    writeSymbolsFrom_comm (fun s => { s with status := w }) (fun _ _ _ => rfl) s 0 ss
  cases i with
  | ser | des | bldl | blda | parse | valid | lsbr | lsbx | appe | appd | dec => rfl
  | lsbw =>
    simp only [exec, execLsbw, doneOk_eq, hloop]
    rfl
  | enc m =>
    match m with
    | 0 =>
      simp only [exec, execEnc, State.embedPayload, doneOk_eq, hloop]
      rfl
    | 1 | m + 2 => rfl

/-- The result with its next state updated by `f`. -/
def mapNext (f : State → State) : Result → Result
  | .next s => .next (f s)
  | .fault r => .fault r
  | .refused r => .refused r

theorem mapNext_ite (f : State → State) (p : Prop) [Decidable p] (r r' : Result) :
    mapNext f (if p then r else r') = if p then mapNext f r else mapNext f r' :=
  apply_ite (mapNext f) p r r'

/-- The spaces and registers LSBX, APPE, ENC and DEC have no use for (10_state.md R21, R26, R27, R29). -/
structure Scratch where
  buf : List Host.Cell
  sym : List (Nat × Symbol)
  blen : Length
  slen : Length
  padf : Word
  count : Length

def State.withScratch (s : State) (x : Scratch) : State :=
  { s with buf := x.buf, sym := x.sym, blen := x.blen, slen := x.slen, padf := x.padf, count := x.count }

section
variable (s : State) (x : Scratch)

theorem deliver_withScratch (q : List Byte) (path : DecodePath) :
    (s.withScratch x).deliver q path = mapNext (·.withScratch x) (s.deliver q path) := by
  rw [State.deliver, State.deliver, mapNext_ite]
  rfl

theorem finishDecode_withScratch (found : Except ErrorCode (Option (List Byte))) (path : DecodePath) :
    (s.withScratch x).finishDecode found path = mapNext (·.withScratch x) (s.finishDecode found path) := by
  match found with
  | .error e => rfl
  | .ok none => rfl
  | .ok (some q) => exact deliver_withScratch s x q path

theorem execLsbx_withScratch : execLsbx (s.withScratch x) = mapNext (·.withScratch x) (execLsbx s) := by
  rw [execLsbx, execLsbx, mapNext_ite, finishDecode_withScratch]
  rfl

theorem appendPayload_withScratch :
    (s.withScratch x).appendPayload = mapNext (·.withScratch x) s.appendPayload := by
  rw [State.appendPayload, State.appendPayload, mapNext_ite, mapNext_ite, mapNext_ite]
  rfl

theorem embedPayload_withScratch : (s.withScratch x).embedPayload = mapNext (·.withScratch x) s.embedPayload := by
  have hloop (ss : List Symbol) : (s.withScratch x).writeSymbolsFrom 0 ss = (s.writeSymbolsFrom 0 ss).withScratch x :=
    writeSymbolsFrom_comm (·.withScratch x) (fun _ _ _ => rfl) s 0 ss
  rw [State.embedPayload, State.embedPayload, mapNext_ite, mapNext_ite, mapNext_ite, hloop]
  rfl

theorem execDec_withScratch : execDec (s.withScratch x) = mapNext (·.withScratch x) (execDec s) := by
  have hdecode : (s.withScratch x).decodeAny = s.decodeAny := rfl
  rw [execDec, execDec, mapNext_ite, mapNext_ite, hdecode]
  match s.decodeAny with
  | .error e => rfl
  | .ok (q, path) =>
    simp only [deliver_withScratch]
    rfl

theorem exec_withScratch {i : Instr} (hi : i ∈ [Instr.lsbx, Instr.appe, Instr.dec] ∨ ∃ m, i = .enc m) :
    exec i (s.withScratch x) = mapNext (·.withScratch x) (exec i s) := by
  simp only [List.mem_cons, List.not_mem_nil, or_false] at hi
  obtain (rfl | rfl | rfl) | ⟨m, rfl⟩ := hi
  · exact execLsbx_withScratch s x
  · exact appendPayload_withScratch s x
  · exact execDec_withScratch s x
  · match m with
    | 0 => exact embedPayload_withScratch s x
    | 1 => exact appendPayload_withScratch s x
    | m + 2 => rfl

end

/-- Settles O42: the four commands commute with `withScratch`. -/
theorem compositesIgnoreBuffers : Obligations.CompositesIgnoreBuffers := by
  intro i s t buf sym blen slen count padf hi h
  have hcomm := exec_withScratch s ⟨buf, sym, blen, slen, padf, count⟩ hi
  rw [h] at hcomm
  exact hcomm

/-! ### A result read back whole -/

theorem readCells_read_write {w : Nat} (fresh : Nat → BitVec w) (m : List (Nat × BitVec w)) (a : Nat)
    (vs : List (BitVec w)) : readCells (Memory.read fresh (Memory.write m a vs)) a vs.length = vs :=
  List.ext_getElem (by simp) fun k _ hk => by
    rw [getElem_readCells, Memory.read_write_of_mem fresh m a k vs hk]

theorem readCells_putBytes (s : State) (bs : List Byte) : readCells (s.putBytes bs).bufAt 0 bs.length = bs :=
  readCells_read_write ..

theorem readCells_putSymbols (s : State) (ss : List Symbol) : readCells (s.putSymbols ss).symAt 0 ss.length = ss :=
  readCells_read_write ..

theorem readCells_appendFile (s : State) (bs : List Byte) :
    readCells (s.appendFile bs).fileAt s.flen.toNat bs.length = bs :=
  readCells_read_write ..

/-! ### What a successful command of the pipeline has done -/

/-- An error entry leaves ERR other than 0. -/
theorem err_ne_zero_of_raise {s t : State} {e : ErrorCode} (h : s.raise e = .next t) : t.err ≠ 0 := by
  cases h
  rw [err_withErrorStatus]
  exact e.number_ne_zero

theorem eq_of_doneOk {s t : State} (h : s.doneOk = .next t) : t = { s with status := 0 } := by
  rw [doneOk_eq] at h
  exact (Host.Outcome.next.inj h).symm

section
variable {s t : State} (herr : t.err = 0)
include herr

theorem bldl_succeeded (h : exec .bldl s = .next t) :
    s.plen.toNat ≤ s.cfg.payBytes ∧ s.plen.toNat + 12 ≤ s.cfg.bufBytes ∧
      t = { s.putBytes (buildLsbFrame s.payload) with status := 0 } := by
  obtain ⟨e, -, h'⟩ | ⟨hpay, hbuf, h'⟩ := buildFrame_cases s buildLsbFrame
  · exact absurd herr (err_ne_zero_of_raise (h'.symm.trans h))
  · exact ⟨hpay, hbuf, eq_of_doneOk (h'.symm.trans h)⟩

theorem ser_succeeded (h : exec .ser s = .next t) :
    0 < s.padf.toNat ∧ padlen s.blen.toNat s.padf.toNat ≤ s.cfg.symCells ∧
      t = { s.putSymbols (serialize (readCells s.bufAt 0 s.blen.toNat) s.padf.toNat) with status := 0 } := by
  obtain ⟨e, -, h'⟩ | ⟨-, hpadf, hsym, h'⟩ := execSer_cases s
  · exact absurd herr (err_ne_zero_of_raise (h'.symm.trans h))
  · exact ⟨hpadf, hsym, eq_of_doneOk (h'.symm.trans h)⟩

theorem lsbw_succeeded (h : exec .lsbw s = .next t) :
    s.npix * s.cfg.ch ≤ s.cfg.pixBytes ∧ s.slen.toNat ≤ s.nsym ∧
      t = { s.writeSymbolsFrom 0 (readCells s.symAt 0 s.slen.toNat) with status := 0 } := by
  obtain ⟨e, -, h'⟩ | ⟨-, hgrid, hfit, h'⟩ := execLsbw_cases s
  · exact absurd herr (err_ne_zero_of_raise (h'.symm.trans h))
  · exact ⟨hgrid, hfit, eq_of_doneOk (h'.symm.trans h)⟩

end

/-! ### The staged round trip -/

/-- LSBX on a carrier with an LSB frame whose payload fits PAY returns that payload (43_lsbchannel.md R87, R88). -/
theorem execLsbx_of_holdsLength {s : State} {n : Nat} (hgrid : s.npix * s.cfg.ch ≤ s.cfg.pixBytes)
    (hmagic : s.StartsWithLsbMagic) (hlen : HoldsLength s.hiddenByte 4 n)
    (hfit : 48 + 4 * n ≤ 3 * (s.width.toNat * s.height.toNat))
    (hpay : n ≤ s.cfg.payBytes) :
    ∃ u, execLsbx s = .next u ∧ ReturnsPayload s u n (fun k => s.hiddenByte (12 + k)) (doneStatus true .lsb) := by
  have hgrid' : s.gridTooLarge ≠ true := fun h => Nat.not_lt.2 hgrid ((gridTooLarge_iff s).1 h)
  rw [execLsbx, if_neg hgrid', extractLsb_length s n hmagic hlen, if_neg (Nat.not_lt.2 hfit)]
  exact deliver_fits s s.hiddenByte 12 n .lsb hlen.1 hpay

theorem toNat_blen_putBytes (s : State) {bs : List Byte} (h : bs.length < 2 ^ 64) :
    (s.putBytes bs).blen.toNat = bs.length :=
  Nat.mod_eq_of_lt h

theorem toNat_slen_putSymbols (s : State) {ss : List Symbol} (h : ss.length < 2 ^ 64) :
    (s.putSymbols ss).slen.toNat = ss.length :=
  Nat.mod_eq_of_lt h

/-- SER after BLDL with PADF 3 leaves in SYM the symbols `encodeLSB` writes (45_toplevel.md R92). -/
theorem ser_after_bldl {s s1 s2 : State} (hcfg : s.cfg.Ok) (hpadf : s.padf = 3) (h1 : exec .bldl s = .next s1)
    (e1 : s1.err = 0) (h2 : exec .ser s1 = .next s2) (e2 : s2.err = 0) :
    s.plen.toNat ≤ s.cfg.payBytes ∧ s2.slen.toNat = padlen (s.plen.toNat + 12) 3 ∧
      readCells s2.symAt 0 s2.slen.toNat = serialize (buildLsbFrame s.payload) 3 ∧
      s2.cfg = s.cfg ∧ s2.plen = s.plen ∧ s2.payAt = s.payAt := by
  obtain ⟨-, -, -, -, -, hbufCap, hsymCap, -⟩ := hcfg
  obtain ⟨hpay, hbuf, hs1⟩ := bldl_succeeded e1 h1
  obtain ⟨-, hsym, hs2⟩ := ser_succeeded e2 h2
  have hblen : s1.blen.toNat = (buildLsbFrame s.payload).length := by
    rw [hs1]
    exact toNat_blen_putBytes s (by simp; omega)
  have hframe : readCells s1.bufAt 0 s1.blen.toNat = buildLsbFrame s.payload := by
    rw [hblen, hs1]
    exact readCells_putBytes s _
  have hpf : s1.padf.toNat = 3 := by rw [hs1, State.putBytes_padf, hpadf]; rfl
  have hcfg1 : s1.cfg = s.cfg := by rw [hs1, State.putBytes_cfg]
  rw [hblen, length_buildLsbFrame, length_payload, hpf, hcfg1] at hsym
  rw [hframe, hpf] at hs2
  have hlen : (serialize (buildLsbFrame s.payload) 3).length = padlen (s.plen.toNat + 12) 3 := by simp
  have hslen : s2.slen.toNat = padlen (s.plen.toNat + 12) 3 := by
    rw [hs2, ← hlen]
    exact toNat_slen_putSymbols s1 (by omega)
  refine ⟨hpay, hslen, ?_, ?_, ?_, ?_⟩
  · rw [hslen, ← hlen, hs2]
    exact readCells_putSymbols s1 _
  all_goals rw [hs2, hs1]; rfl

/-- LSBX after a frame has been embedded as `encodeLSB` does returns the embedded payload (45_toplevel.md R92). -/
theorem execLsbx_after_embed (s : State) (hch : 3 ≤ s.cfg.ch) (hgrid : s.npix * s.cfg.ch ≤ s.cfg.pixBytes)
    (hpay : s.plen.toNat ≤ s.cfg.payBytes) (hfit : 4 * (s.plen.toNat + 12) ≤ s.nsym) :
    ∃ u, execLsbx (s.writeSymbolsFrom 0 (serialize (buildLsbFrame s.payload) 3)) = .next u ∧
      u.status = doneStatus true .lsb ∧ u.plen = s.plen ∧ ∀ k, k < s.plen.toNat → u.payAt k = s.payAt k := by
  obtain ⟨hmagic, hlen, hbytes⟩ := hiddenBytes_embed s hch
  have hfit' : 48 + 4 * s.plen.toNat ≤ 3 * (s.width.toNat * s.height.toNat) := by
    simp only [State.nsym, State.npix] at hfit
    omega
  obtain ⟨u, hu, hframe, hplen, hcells, -⟩ := execLsbx_of_holdsLength
    (s := s.writeSymbolsFrom 0 (serialize (buildLsbFrame s.payload) 3)) (n := s.plen.toNat)
    (by simpa [State.npix] using hgrid) ⟨by simp; omega, hmagic⟩ hlen (by simpa using hfit') (by simpa using hpay)
  exact ⟨u, hu, by rw [hframe], BitVec.eq_of_toNat_eq hplen, fun k hk => (hcells k hk).trans (hbytes k hk)⟩

/-- Settles O35: the stages leave in PIX the frame that ENC with MODE 0 embeds, and LSBX reads it back. -/
theorem pipelineRoundTrip : Obligations.PipelineRoundTrip := by
  intro s s1 s2 s3 hcfg hpadf h1 e1 h2 e2 h3 e3
  obtain ⟨hpay, hslen, hsyms, hcfg2, hplen2, hpayAt2⟩ := ser_after_bldl hcfg hpadf h1 e1 h2 e2
  obtain ⟨hgrid, hfit, hs3⟩ := lsbw_succeeded e3 h3
  have hpayload : s2.payload = s.payload := by rw [State.payload, State.payload, hplen2, hpayAt2]
  have hpad := le_padlen (s.plen.toNat + 12) 3 (by omega)
  obtain ⟨u, hu, hstatus, hplen, hcells⟩ := execLsbx_after_embed s2 (hcfg2 ▸ hcfg.1) hgrid
    (by rw [hplen2, hcfg2]; exact hpay) (by rw [hplen2]; omega)
  refine ⟨u, ?_, ?_, ?_, ?_, hplen.trans hplen2, ?_⟩
  · rw [hs3, hsyms, noCommandReadsStatus, ← hpayload]
    exact hu
  · rw [State.err, hstatus]; rfl
  · rw [State.flag, hstatus]; rfl
  · rw [State.path, hstatus]; rfl
  · rw [← hplen2, ← hpayAt2]
    exact hcells

/-! ### The first command after reset -/

section
variable {cfg : Config} (epoch : Nat) (inputs : List HostAction) (readback : Option (BitVec 64))

@[simp] theorem atReset_width : (State.atReset cfg epoch inputs readback).width = 0 := rfl
@[simp] theorem atReset_height : (State.atReset cfg epoch inputs readback).height = 0 := rfl
@[simp] theorem atReset_plen : (State.atReset cfg epoch inputs readback).plen = 0 := rfl
@[simp] theorem atReset_blen : (State.atReset cfg epoch inputs readback).blen = 0 := rfl
@[simp] theorem atReset_slen : (State.atReset cfg epoch inputs readback).slen = 0 := rfl
@[simp] theorem atReset_flen : (State.atReset cfg epoch inputs readback).flen = 0 := rfl
@[simp] theorem atReset_padf : (State.atReset cfg epoch inputs readback).padf = 3 := rfl
@[simp] theorem atReset_count : (State.atReset cfg epoch inputs readback).count = 0 := rfl
@[simp] theorem atReset_cfg : (State.atReset cfg epoch inputs readback).cfg = cfg := rfl

theorem done_atReset :
    (State.atReset cfg epoch inputs readback).done false .none = .next (State.atReset cfg epoch inputs readback) := rfl

theorem doneOk_atReset :
    (State.atReset cfg epoch inputs readback).doneOk = .next (State.atReset cfg epoch inputs readback) := rfl

theorem putSymbols_nil_atReset :
    (State.atReset cfg epoch inputs readback).putSymbols [] = State.atReset cfg epoch inputs readback := rfl

theorem putBytes_nil_atReset :
    (State.atReset cfg epoch inputs readback).putBytes [] = State.atReset cfg epoch inputs readback := rfl

theorem payload_atReset : (State.atReset cfg epoch inputs readback).payload = [] := rfl

theorem gridTooLarge_atReset : (State.atReset cfg epoch inputs readback).gridTooLarge = false := by
  simp [State.gridTooLarge, State.npix]

theorem parseAppendTrailer_atReset :
    parseAppendTrailer (State.atReset cfg epoch inputs readback).fileAt 0 = .ok none := rfl

theorem extractLsb_atReset : (State.atReset cfg epoch inputs readback).extractLsb = .ok none :=
  extractLsb_none _ fun ⟨h, _⟩ => by simp at h

/-- With every length 0 these commands write nothing, and STATUS was 0 already. -/
theorem exec_atReset_idle {i : Instr} (hi : i ∈ [Instr.ser, .des, .lsbw, .lsbr, .lsbx, .parse, .appd]) :
    exec i (State.atReset cfg epoch inputs readback) = .next (State.atReset cfg epoch inputs readback) := by
  have hparse :
      (State.atReset cfg epoch inputs readback).trailerToPayload = .next (State.atReset cfg epoch inputs readback) := by
    simp [State.trailerToPayload, parseAppendTrailer_atReset, State.finishDecode, done_atReset]
  simp only [List.mem_cons, List.not_mem_nil, or_false] at hi
  obtain rfl | rfl | rfl | rfl | rfl | rfl | rfl := hi
  · have hser : serialize [] 3 = [] := by decide
    simp [exec, execSer, padlen, readCells, hser, putSymbols_nil_atReset, doneOk_atReset]
  · simp [exec, execDes, readCells, deserialize, putBytes_nil_atReset, doneOk_atReset]
  · simp [exec, execLsbw, gridTooLarge_atReset, readCells, State.writeSymbolsFrom, doneOk_atReset]
  · simp [exec, execLsbr, gridTooLarge_atReset, State.readFirst, readCells, putSymbols_nil_atReset, doneOk_atReset]
  · simp [exec, execLsbx, gridTooLarge_atReset, extractLsb_atReset, State.finishDecode, done_atReset]
  · exact hparse
  · exact hparse

/-- BLDL and BLDA build the frame of the empty payload. -/
theorem buildFrame_atReset (hcfg : cfg.Ok) {s : State} (hs : s = State.atReset cfg epoch inputs readback)
    {frame : List Byte → List Byte} {bytes : List Byte} (hframe : frame [] = bytes) (hlen : bytes.length = 12) :
    ∃ t, s.buildFrame frame = .next t ∧ t = { s with status := 0, buf := t.buf, blen := 12 } ∧
      readCells t.bufAt 0 12 = bytes ∧ ∀ a, 12 ≤ a → t.bufAt a = s.bufAt a := by
  obtain ⟨-, hcap, -⟩ := hcfg
  have hbuf : ¬ 12 > cfg.bufBytes := Nat.not_lt.2 hcap
  have hbuild : s.buildFrame frame = .next { s.putBytes bytes with status := 0 } := by
    simp [hs, State.buildFrame, payload_atReset, hframe, hbuf, doneOk_eq]
  refine ⟨_, hbuild, ?_, ?_, fun a ha => bufAt_putBytes_above s (hlen ▸ ha)⟩
  · simp only [State.putBytes, hlen]
    rfl
  · exact hlen ▸ readCells_putBytes s bytes

/-- APPE and ENC with MODE 1 put the frame of the empty payload into FILE from address 0. -/
theorem appendPayload_atReset (hcfg : cfg.Ok) {s : State} (hs : s = State.atReset cfg epoch inputs readback) :
    ∃ t, s.appendPayload = .next t ∧ t = { s with status := 0, file := t.file, flen := 12 } ∧
      readCells t.fileAt 0 12 = buildAppendFrame [] ∧ ∀ a, 12 ≤ a → t.fileAt a = s.fileAt a := by
  obtain ⟨-, -, -, hcap, -⟩ := hcfg
  have hfile : ¬ 12 > cfg.fileBytes := Nat.not_lt.2 hcap
  have happend : s.appendPayload = .next { s.appendFile (buildAppendFrame []) with status := 0 } := by
    simp [hs, State.appendPayload, payload_atReset, hfile, doneOk_eq]
  subst hs
  have hother (a : Nat) (ha : 12 ≤ a) := fileAt_appendFile_other (State.atReset cfg epoch inputs readback)
    (bs := buildAppendFrame []) (.inr ha)
  exact ⟨_, happend, rfl, readCells_appendFile _ _, hother⟩

end

/-- Settles O17: every length is 0, so no command reads a cell that has not been written. -/
theorem firstCommandAfterReset : Obligations.FirstCommandAfterReset := by
  intro cfg epoch inputs readback s hcfg hs
  have hlsb : buildLsbFrame [] = [0xDE#8, 0xAD#8, 0xC0#8, 0xDE#8, 0#8, 0#8, 0#8, 0#8, 0#8, 0#8, 0#8, 0#8] := by decide
  have happ : buildAppendFrame [] = [0#8, 0#8, 0#8, 0#8, 0#8, 0#8, 0#8, 0#8, 0xDE#8, 0xC0#8, 0xFE#8, 0x5A#8] := by
    decide
  refine ⟨fun i hi => ?_, ?_, ?_, ?_, ?_, ?_, buildFrame_atReset epoch inputs readback hcfg hs hlsb rfl,
    buildFrame_atReset epoch inputs readback hcfg hs happ rfl, fun i hi => ?_⟩
  · rw [hs]
    exact exec_atReset_idle epoch inputs readback hi
  · simp [hs, exec, execValid, State.raise, errorStatus_badOperand]
  · simp [hs, exec, execEnc, State.embedPayload, gridTooLarge_atReset, State.frameCapacity, State.npix, State.raise,
      errorStatus_capacityExceeded]
  · rfl
  · rfl
  · simp [hs, exec, execDec, gridTooLarge_atReset, State.decodeAny, parseAppendTrailer_atReset, extractLsb_atReset,
      State.raise, errorStatus_noHiddenData]
  · have happend := appendPayload_atReset epoch inputs readback hcfg hs
    rw [happ] at happend
    simp only [List.mem_cons, List.not_mem_nil, or_false] at hi
    obtain rfl | rfl := hi <;> exact happend

end Sys2Proof.Machine

/-! PROOFS. The host's reads, and commands issued again (20_memory.md R48). -/

namespace Sys2Proof.Machine

/-! ### Reads by the host -/

theorem exists_regValue_of_le (s : State) {reg : Nat} (h : reg ≤ 9) : ∃ v, s.regValue reg = some v := by
  interval_cases reg <;> exact ⟨_, rfl⟩

/-- Settles O14: registers 0 to 9 have a value, a cell below the capacity passes the test, and neither value depends on
the queue. -/
theorem hostReadsHaveNoSideEffect : Obligations.HostReadsHaveNoSideEffect := by
  refine fun s rest => ⟨fun reg hreg hin => ?_, fun sp a ha hin => (step_of_inputs hin).trans (if_pos ha)⟩
  obtain ⟨v, hv⟩ := exists_regValue_of_le s hreg
  exact ⟨v, hv, (step_of_inputs hin).trans (hostReadReg_of_regValue hv)⟩

/-! ### Writing a result again -/

section
variable (s : State)

theorem putSymbols_putSymbols (ss : List Symbol) : (s.putSymbols ss).putSymbols ss = s.putSymbols ss := by
  simp only [State.putSymbols, Memory.write_write_self]

theorem putBytes_putBytes (bs : List Byte) : (s.putBytes bs).putBytes bs = s.putBytes bs := by
  simp only [State.putBytes, Memory.write_write_self]

theorem putPayload_putPayload (q : List Byte) : (s.putPayload q).putPayload q = s.putPayload q := by
  simp only [State.putPayload, Memory.write_write_self]

theorem writeSymbolsFrom_writeSymbolsFrom (hch : 3 ≤ s.cfg.ch) (hw : Memory.wf s.pix) (ss : List Symbol) :
    (s.writeSymbolsFrom 0 ss).writeSymbolsFrom 0 ss = s.writeSymbolsFrom 0 ss := by
  rw [State.writeSymbolsFrom_eq (s.writeSymbolsFrom 0 ss), pix_writeSymbolsFrom_twice s hch ss hw]

theorem writeSymbolsFrom_withStatus (w : Word) (ss : List Symbol) :
    ({ s with status := w } : State).writeSymbolsFrom 0 ss = { s.writeSymbolsFrom 0 ss with status := w } :=
  writeSymbolsFrom_comm (fun s => { s with status := w }) (fun _ _ _ => rfl) s 0 ss

end

/-! ### Repeatable writes

A command whose sources are not among what it writes is, with its sources held fixed, a function of the state it writes
into. It is idempotent when that function answers its own answer again. -/

/-- `k` answers from its own answer what it answered. -/
def Repeatable (k : State → Result) : Prop := ∀ ⦃s t : State⦄, s.Inv → k s = .next t → k t = .next t

namespace Repeatable

/-- A function that answers `f u` whatever happens is repeatable when `f` is idempotent. -/
theorem next {f : State → State} (hf : ∀ s : State, s.Inv → f (f s) = f s) : Repeatable fun u => .next (f u) := by
  intro s t hs h
  cases h
  exact congrArg _ (hf s hs)

theorem raise (e : ErrorCode) : Repeatable (·.raise e) := next fun _ _ => rfl

theorem done (flag : Bool) (path : DecodePath) : Repeatable (·.done flag path) := next fun _ _ => rfl

/-- An error test that reads nothing of the state written into. -/
theorem guard {p : Prop} {_ : Decidable p} {e : ErrorCode} {k : State → Result} (hk : Repeatable k) :
    Repeatable fun u => if p then u.raise e else k u := by
  by_cases hp : p
  · simpa only [hp, if_true] using raise e
  · simpa only [hp, if_false] using hk

theorem putSymbols (ss : List Symbol) : Repeatable fun u => (u.putSymbols ss).doneOk :=
  next fun s _ => congrArg (fun u : State => { u with status := 0 }) (putSymbols_putSymbols s ss)

theorem putBytes (bs : List Byte) : Repeatable fun u => (u.putBytes bs).doneOk :=
  next fun s _ => congrArg (fun u : State => { u with status := 0 }) (putBytes_putBytes s bs)

/-- With CH at least 3 no symbol is written over another, and a symbol keeps its channel's
upper bits. -/
theorem writeSymbolsFrom (ss : List Symbol) : Repeatable fun u => (u.writeSymbolsFrom 0 ss).doneOk := by
  refine next fun s ⟨⟨hch, _⟩, ⟨hw, _⟩, _⟩ => ?_
  rw [writeSymbolsFrom_withStatus, writeSymbolsFrom_writeSymbolsFrom s hch hw]

theorem deliver (q : List Byte) (path : DecodePath) : Repeatable (·.deliver q path) := by
  have hput : Repeatable fun u => (u.putPayload q).done true path :=
    next fun s _ => congrArg (fun u : State => { u with status := doneStatus true path }) (putPayload_putPayload s q)
  intro s t hs h
  obtain ⟨hlong, h'⟩ | ⟨hfit, h'⟩ := deliver_cases s q path
  · cases h'.symm.trans h
    exact if_pos hlong
  · have ht := hput hs (h'.symm.trans h)
    cases h'.symm.trans h
    exact (if_neg (Nat.not_lt.2 hfit)).trans ht

theorem finishDecode (found : Except ErrorCode (Option (List Byte))) (path : DecodePath) :
    Repeatable (·.finishDecode found path) := by
  match found with
  | .error e => exact raise e
  | .ok none => exact done false .none
  | .ok (some q) => exact deliver q path

theorem finishDecodeAny (found : Except ErrorCode (List Byte × DecodePath)) :
    Repeatable fun u => match found with
      | .error e => u.raise e
      | .ok (q, path) => u.deliver q path := by
  match found with
  | .error e => exact raise e
  | .ok (q, path) => exact deliver q path

/-- A command that is `k` on `s`, and is still `k` on its answer because it wrote none of its sources, is
idempotent. -/
theorem reissue {k : State → Result} {i : Instr} {s t t' : State} (hk : Repeatable k) (hs : s.Inv) (h : k s = .next t)
    (ht : t = t') (hsame : exec i t' = k t') : exec i t = .next t := by
  rw [ht, hsame, ← ht]
  exact hk hs h

end Repeatable

/-! ### Commands issued again -/

/-- Settles O45: each command but APPE and ENC with MODE 1 is a chain of guards before one repeatable write. By R30's
columns (`WritesAtMost`) the guards and the value written read nothing that the command writes; LSBW and ENC with MODE 0
keep what they do read of PIX. -/
theorem reissueIsIdempotent : Obligations.ReissueIsIdempotent := by
  intro i s t hs happe henc h
  have hw := (ended_of_exec i s t h).writesAtMost
  cases i with
  | ser | lsbr => exact (Repeatable.guard (.guard (.guard (.putSymbols _)))).reissue hs h hw rfl
  | des | bldl | blda => exact (Repeatable.guard (.guard (.putBytes _))).reissue hs h hw rfl
  | parse | appd | lsbx => exact (Repeatable.guard (.finishDecode _ _)).reissue hs h hw rfl
  | valid => exact (Repeatable.guard (.guard (.done _ _))).reissue hs h hw rfl
  | lsbw => exact (Repeatable.guard (.guard (.guard (.writeSymbolsFrom _)))).reissue hs h hw rfl
  | appe => exact absurd rfl happe
  | enc m =>
    match m with
    | 0 => exact (Repeatable.guard (.guard (.guard (.writeSymbolsFrom _)))).reissue hs h hw rfl
    | 1 => exact absurd rfl henc
    | m + 2 => exact (Repeatable.raise _).reissue hs h hw rfl
  | dec => exact (Repeatable.guard (.guard (.finishDecodeAny _))).reissue hs h hw rfl

end Sys2Proof.Machine

/-! PROOFS. The encoding of commands: the fields of a word, decode and encode, the legal words, the illegal words, the
rows of the match and mask table (30_encoding.md). -/

namespace Sys2Proof

open Machine

/-! ### The fields of a word (30_encoding.md R55) -/

theorem fields_append (w : Word) : rsvField w ++ modeField w ++ opField w = w := by
  have hhigh : rsvField w ++ modeField w = w.extractLsb' 8 24 :=
    BitVec.extractLsb'_append_extractLsb'_eq_extractLsb' rfl
  have hall : w.extractLsb' 8 24 ++ opField w = w.extractLsb' 0 32 :=
    BitVec.extractLsb'_append_extractLsb'_eq_extractLsb' rfl
  rw [hhigh, hall, BitVec.extractLsb'_eq_self]

theorem eq_of_fields_eq {w w' : Word} (hrsv : rsvField w = rsvField w') (hmode : modeField w = modeField w')
    (hop : opField w = opField w') : w = w' := by
  rw [← fields_append w, ← fields_append w', hrsv, hmode, hop]

theorem toNat_rsvField (w : Word) : (rsvField w).toNat = w.toNat / 2 ^ 10 := by
  rw [rsvField, BitVec.extractLsb'_toNat, Nat.shiftRight_eq_div_pow]
  omega

theorem toNat_modeField (w : Word) : (modeField w).toNat = w.toNat / 2 ^ 8 % 4 := by
  rw [modeField, BitVec.extractLsb'_toNat, Nat.shiftRight_eq_div_pow]

theorem toNat_opField (w : Word) : (opField w).toNat = w.toNat % 2 ^ 8 := by
  rw [opField, BitVec.extractLsb'_toNat, Nat.shiftRight_zero]

/-- Settles O6: the law of each command's word. -/
theorem encodedFieldsOfFormatC : Obligations.EncodedFieldsOfFormatC := by
  intro i
  cases i with
  | ser => exact Laws.FormatC.ser
  | des => exact Laws.FormatC.des
  | bldl => exact Laws.FormatC.bldl
  | blda => exact Laws.FormatC.blda
  | parse => exact Laws.FormatC.parse
  | valid => exact Laws.FormatC.valid
  | lsbw => exact Laws.FormatC.lsbw
  | lsbr => exact Laws.FormatC.lsbr
  | lsbx => exact Laws.FormatC.lsbx
  | appe => exact Laws.FormatC.appe
  | appd => exact Laws.FormatC.appd
  | enc mode => exact Laws.FormatC.enc mode
  | dec => exact Laws.FormatC.dec

/-- The word of a well-formed command is the only one with its fields. -/
theorem encode_eq_of_fields {i : Instr} {w : Word} (hwf : i.wellFormed = true) (hrsv : rsvField w = 0)
    (hmode : modeField w = i.modeBits) (hop : opField w = i.op) : encode i = w := by
  obtain ⟨hrsv', hop', hmode'⟩ := encodedFieldsOfFormatC i hwf
  refine eq_of_fields_eq (hrsv'.trans hrsv.symm) ?_ (hop'.trans hop.symm)
  rw [hmode]
  apply BitVec.eq_of_toNat_eq
  rw [hmode']
  cases i with
  | enc m =>
    have hm : m < 4 := of_decide_eq_true hwf
    exact (Nat.mod_eq_of_lt hm).symm
  | _ => rfl

/-! ### Decode and encode (30_encoding.md R64) -/

/-- Every well-formed command, ENC with each of its modes (30_encoding.md R65). -/
def legalCommands : List Instr :=
  [.ser, .des, .bldl, .blda, .parse, .valid, .lsbw, .lsbr, .lsbx, .appe, .appd, .enc 0, .enc 1, .enc 2, .enc 3, .dec]

theorem mem_legalCommands {i : Instr} : i ∈ legalCommands ↔ i.wellFormed = true := by
  cases i with
  | enc m =>
    simp [legalCommands, Instr.wellFormed]
    omega
  | _ => decide

theorem decode_encode {i : Instr} (hwf : i.wellFormed = true) : decode (encode i) = .ok i := by
  have h : ∀ i ∈ legalCommands, decode (encode i) = .ok i := by decide
  exact h i (mem_legalCommands.2 hwf)

theorem decode_enc {w : Word} (hrsv : rsvField w = 0) (hop : opField w = 0x0C) :
    decode w = .ok (.enc (modeField w).toNat) := by
  rw [decode, if_neg (not_not.2 hrsv), if_pos hop]

/-- A row of the OP table (30_encoding.md R56). -/
theorem of_plainCommand_eq_some {n : Nat} {i : Instr} (h : plainCommand n = some i) :
    i.wellFormed = true ∧ i.modeBits = 0 ∧ i.op.toNat = n := by
  unfold plainCommand at h
  split at h <;> cases h <;> exact ⟨rfl, rfl, rfl⟩

/-- A command decoded is well formed, and the word has its fields. -/
theorem fields_of_decode {w : Word} {i : Instr} (h : decode w = .ok i) :
    i.wellFormed = true ∧ rsvField w = 0 ∧ modeField w = i.modeBits ∧ opField w = i.op := by
  unfold decode at h
  split_ifs at h with hrsv hop hmode
  · cases h
    exact ⟨decide_eq_true (modeField w).isLt, not_not.1 hrsv, by simp [Instr.modeBits], hop⟩
  · cases hplain : plainCommand (opField w).toNat with
    | none => simp [hplain] at h
    | some j =>
      obtain rfl : j = i := by simpa [hplain] using h
      obtain ⟨hwf, hbits, hnum⟩ := of_plainCommand_eq_some hplain
      exact ⟨hwf, not_not.1 hrsv, (not_not.1 hmode).trans hbits.symm, BitVec.eq_of_toNat_eq hnum.symm⟩

/-- Settles O4: what the decoder answers has the fields of the word, and these determine the word; the other way, every
well-formed command is one of sixteen. -/
theorem decodeInvertsEncode : Obligations.DecodeInvertsEncode := by
  intro w i
  constructor
  · intro h
    obtain ⟨hwf, hrsv, hmode, hop⟩ := fields_of_decode h
    exact ⟨hwf, encode_eq_of_fields hwf hrsv hmode hop⟩
  · rintro ⟨hwf, rfl⟩
    exact decode_encode hwf

/-! ### The legal words (30_encoding.md R65) -/

/-- Settles O1: each of these words is `encode` of its command. -/
theorem commandWordsDecode : Obligations.CommandWordsDecode := by
  have h (i : Instr) (hwf : i.wellFormed = true) := decode_encode hwf
  exact ⟨h .ser rfl, h .des rfl, h .bldl rfl, h .blda rfl, h .parse rfl, h .valid rfl, h .lsbw rfl, h .lsbr rfl,
    h .lsbx rfl, h .appe rfl, h .appd rfl, h (.enc 0) rfl, h (.enc 1) rfl, h (.enc 2) rfl, h (.enc 3) rfl, h .dec rfl⟩

/-- A word decodes to a command exactly when it is the word of one of the sixteen. -/
theorem decode_eq_ok_iff_mem {w : Word} {i : Instr} :
    decode w = .ok i ↔ (w, i) ∈ legalCommands.map fun i => (encode i, i) := by
  rw [decodeInvertsEncode, ← mem_legalCommands]
  simp [and_comm]

theorem exec_enc_invalidMode (m : Nat) (s : State) : exec (.enc (m + 2)) s = .next { s with status := 3#32 } := by
  have hraise : exec (.enc (m + 2)) s = s.raise .invalidMode := rfl
  rw [hraise, State.raise, errorStatus_invalidMode]

/-- Settles O2: the list holds the words of the sixteen well-formed commands. -/
theorem sixteenWordsAreLegal : Obligations.SixteenWordsAreLegal :=
  ⟨fun _ _ => decode_eq_ok_iff_mem, fun s => ⟨exec_enc_invalidMode 0 s, exec_enc_invalidMode 1 s⟩⟩

/-! ### The illegal words (30_encoding.md R59) -/

theorem plainCommand_eq_none_iff {n : Nat} : plainCommand n = none ↔ n = 0 ∨ n = 0x0C ∨ 0x0E ≤ n := by
  obtain hlt | hge := Nat.lt_or_ge n 0x0E
  · interval_cases n <;> decide
  · obtain ⟨k, rfl⟩ := Nat.exists_eq_add_of_le' hge
    exact iff_of_true rfl (.inr (.inr hge))

theorem decode_eq_error_iff {w : Word} : (∃ e, decode w = .error e) ↔
    rsvField w ≠ 0 ∨ opField w ≠ 0x0C ∧ (modeField w ≠ 0 ∨ plainCommand (opField w).toNat = none) := by
  unfold decode
  split_ifs with hrsv hop hmode
  · exact iff_of_true ⟨_, rfl⟩ (.inl hrsv)
  · exact iff_of_false nofun fun h => h.elim hrsv fun h => h.1 hop
  · exact iff_of_true ⟨_, rfl⟩ (.inr ⟨hop, .inl hmode⟩)
  · cases plainCommand (opField w).toNat with
    | none => exact iff_of_true ⟨_, rfl⟩ (.inr ⟨hop, .inr rfl⟩)
    | some i => exact iff_of_false nofun fun h => h.elim hrsv fun h => h.2.elim hmode nofun

theorem runWord_illegal {w : Word} (h : ∃ e, decode w = .error e) (s : State) :
    s.runWord w = .next { s with status := 8#32 } := by
  obtain ⟨e, he⟩ := h
  simp only [State.runWord, he, State.raise, errorStatus_illegalCommand]

/-- Settles O3: the decoder's tests, read as numbers; a word that fails them raises `IllegalCommand`. -/
theorem illegalWordsRaiseCode8 : Obligations.IllegalWordsRaiseCode8 := by
  intro w
  constructor
  · have hrsv : rsvField w = 0 ↔ w.toNat / 2 ^ 10 = 0 := by rw [← toNat_rsvField, ← BitVec.toNat_inj]; rfl
    have hmode : modeField w = 0 ↔ w.toNat / 2 ^ 8 % 4 = 0 := by rw [← toNat_modeField, ← BitVec.toNat_inj]; rfl
    have hop : opField w = 0x0C ↔ w.toNat % 2 ^ 8 = 0x0C := by rw [← toNat_opField, ← BitVec.toNat_inj]; rfl
    rw [decode_eq_error_iff, plainCommand_eq_none_iff, toNat_opField, ne_eq, ne_eq, ne_eq, hrsv, hmode, hop]
    omega
  · intro s rest hin hill
    rw [step_of_command hin]
    exact runWord_illegal hill _

/-! ### The match and mask table (30_encoding.md R64) -/

theorem rsvField_and (w m : Word) : rsvField (w &&& m) = rsvField w &&& rsvField m := BitVec.extractLsb'_and
theorem opField_and (w m : Word) : opField (w &&& m) = opField w &&& opField m := BitVec.extractLsb'_and

/-- No mask frees a bit of RSV. -/
theorem rsvField_mask (row : Instr) : rsvField row.mask = BitVec.allOnes 22 := by
  cases row with
  | enc m => exact (by decide : rsvField 0xFFFFFCFF = BitVec.allOnes 22)
  | _ => decide

/-- No mask frees a bit of OP. -/
theorem opField_mask (row : Instr) : opField row.mask = BitVec.allOnes 8 := by
  cases row with
  | enc m => exact (by decide : opField 0xFFFFFCFF = BitVec.allOnes 8)
  | _ => decide

/-- A word that selects a row is legal: only ENC's mask frees bits, and those are MODE, where every value is legal. -/
theorem exists_decode_of_selectsRow {w : Word} {row : Instr} (hwf : row.wellFormed = true)
    (h : selectsRow w row = true) : ∃ i, decode w = .ok i := by
  have hmatch : w &&& row.mask = encode row := of_decide_eq_true h
  cases row with
  | enc m =>
    obtain ⟨hrsv, hop, -⟩ := encodedFieldsOfFormatC (.enc m) hwf
    rw [← hmatch, rsvField_and, rsvField_mask, BitVec.and_allOnes] at hrsv
    rw [← hmatch, opField_and, opField_mask, BitVec.and_allOnes] at hop
    exact ⟨_, decode_enc hrsv hop⟩
  | _ =>
    have hw : encode _ = w := hmatch.symm.trans BitVec.and_allOnes
    exact ⟨_, hw ▸ decode_encode hwf⟩

/-- The row a command stands in. -/
def Instr.row : Instr → Instr
  | .enc _ => .enc 0
  | i => i

theorem filter_selectsRow_encode {i : Instr} (hwf : i.wellFormed = true) :
    commandRows.filter (selectsRow (encode i)) = [i.row] := by
  have h : ∀ i ∈ legalCommands, commandRows.filter (selectsRow (encode i)) = [i.row] := by decide
  exact h i (mem_legalCommands.2 hwf)

/-- Settles O5: the word of a command selects its row; a word that selects some row is legal. -/
theorem oneRowPerWord : Obligations.OneRowPerWord := by
  intro w
  cases hdec : decode w with
  | ok i =>
    obtain ⟨hwf, rfl⟩ := (decodeInvertsEncode w i).1 hdec
    rw [filter_selectsRow_encode hwf]
    cases i <;> rfl
  | error e =>
    refine List.filter_eq_nil_iff.2 fun row hrow hsel => ?_
    have hwf : ∀ row ∈ commandRows, row.wellFormed = true := by decide
    obtain ⟨i, hi⟩ := exists_decode_of_selectsRow (hwf row hrow) hsel
    cases hdec.symm.trans hi

end Sys2Proof

/-! PROOFS. The symbol codec: the laws of `serialize` and `deserialize`, SER and DES (41_symbolcodec.md). -/

namespace Sys2Proof.Machine

/-! ### `deserialize` after `serialize` (41_symbolcodec.md R71) -/

theorem deserialize_serialize (bs : List Byte) (pf : Nat) :
    deserialize (serialize bs pf) = bs ++ List.replicate (padCount bs.length pf / 4) 0#8 := by
  rw [serialize, deserialize_expand_append]
  exact congrArg (bs ++ ·) (deserialize_replicate_zero _)

theorem padCount_lt (n : Nat) {pf : Nat} (h : 0 < pf) : padCount n pf < pf := Nat.mod_lt _ h

/-- Padding to a factor of at most 4 makes no complete group, so it adds no byte. -/
theorem deserialize_serialize_of_le_four (bs : List Byte) {pf : Nat} (hpos : 0 < pf) (hle : pf ≤ 4) :
    deserialize (serialize bs pf) = bs := by
  have hgroups : padCount bs.length pf / 4 = 0 := Nat.div_eq_of_lt ((padCount_lt _ hpos).trans_le hle)
  rw [deserialize_serialize, hgroups, List.replicate_zero, List.append_nil]

/-- Settles O18: the padding comes back as `padCount / 4` zero bytes, none for the factors 1 and 3. -/
theorem serializeDeserializeRoundTrip : Obligations.SerializeDeserializeRoundTrip := by
  have hthree (bs : List Byte) : deserialize (serialize bs 3) = bs :=
    deserialize_serialize_of_le_four bs (by decide) (by decide)
  refine ⟨fun b => deserialize_serialize_of_le_four [b] (by decide) (by decide), fun bs => ?_,
    fun bs pf _ => ⟨_, deserialize_serialize bs pf⟩, fun bs => ⟨?_, ?_⟩, by decide, by decide⟩
  · rw [hthree, List.take_length]
  · have hlt := padCount_lt bs.length (pf := 3) (by decide)
    rw [length_serialize bs 3 (by decide), ← padCount_add bs.length 3 (by decide)]
    omega
  · rw [hthree]

/-! ### Errors of the two commands (60_exceptions.md R108) -/

theorem raise_badOperand (s : State) : s.raise .badOperand = .next { s with status := 6 } := by
  rw [State.raise, errorStatus_badOperand]; rfl

theorem raise_bufferOverflow (s : State) : s.raise .bufferOverflow = .next { s with status := 7 } := by
  rw [State.raise, errorStatus_bufferOverflow]; rfl

/-! ### SER (41_symbolcodec.md R69) -/

section
variable {s : State}

theorem exec_ser_of_blen_gt (h : s.cfg.bufBytes < s.blen.toNat) : exec .ser s = .next { s with status := 6 } := by
  rw [exec, execSer, if_pos h, raise_badOperand]

section
variable (hblen : s.blen.toNat ≤ s.cfg.bufBytes)
include hblen

theorem exec_ser_of_padf_zero (h : s.padf.toNat = 0) : exec .ser s = .next { s with status := 6 } := by
  rw [exec, execSer, if_neg (Nat.not_lt.2 hblen), if_pos (BitVec.eq_of_toNat_eq h), raise_badOperand]

variable (hpadf : s.padf.toNat ≠ 0)
include hpadf

/-- SER past its operand checks: only the padded count decides. -/
theorem exec_ser_of_operands_ok : exec .ser s =
    if s.cfg.symCells < padlen s.blen.toNat s.padf.toNat then s.raise .bufferOverflow
    else (s.putSymbols (serialize (readCells s.bufAt 0 s.blen.toNat) s.padf.toNat)).doneOk := by
  have hpadf' : s.padf ≠ 0 := fun h => hpadf (congrArg BitVec.toNat h)
  rw [exec, execSer, if_neg (Nat.not_lt.2 hblen), if_neg hpadf']

theorem exec_ser_of_padlen_gt (h : s.cfg.symCells < padlen s.blen.toNat s.padf.toNat) :
    exec .ser s = .next { s with status := 7 } := by
  rw [exec_ser_of_operands_ok hblen hpadf, if_pos h, raise_bufferOverflow]

theorem exec_ser_of_fits (h : padlen s.blen.toNat s.padf.toNat ≤ s.cfg.symCells) : exec .ser s =
    .next { s.putSymbols (serialize (readCells s.bufAt 0 s.blen.toNat) s.padf.toNat) with status := 0 } := by
  rw [exec_ser_of_operands_ok hblen hpadf, if_neg (Nat.not_lt.2 h), doneOk_eq]

end

end

section
variable (s : State) (cell : Nat → Byte) (n : Nat) {pf : Nat}

/-- Lane `j` of byte `k` in SYM after its serialization (20_memory.md R37, R38). -/
theorem symAt_putSymbols_serialize_data {k j : Nat} (hk : k < n) (hj : j < 4) :
    (s.putSymbols (serialize (readCells cell 0 n) pf)).symAt (4 * k + j) =
      BitVec.ofNat 2 ((cell k).toNat / 2 ^ (6 - 2 * j)) := by
  have hdiv : (4 * k + j) / 4 = k := by omega
  have hmod : (4 * k + j) % 4 = j := by omega
  apply symAt_putSymbols
  rw [getElem?_serialize_data _ _ _ (by rw [length_readCells]; omega), hdiv, hmod, getElem?_readCells _ _ _ _ hk,
    Option.map_some, symbol_eq_ofNat _ _ hj, Nat.zero_add]

theorem symAt_putSymbols_serialize_pad {i : Nat} (hpf : 0 < pf) (hlo : 4 * n ≤ i) (hhi : i < padlen n pf) :
    (s.putSymbols (serialize (readCells cell 0 n) pf)).symAt i = 0 :=
  symAt_putSymbols s (getElem?_serialize_pad _ _ _ hpf (by simpa using hlo) (by simpa using hhi))

end

/-- Settles O19: SYM holds the serialized bytes, whose count is `padlen`, below 2^64 because it fits SYM. -/
theorem serSerializesBufIntoSym : Obligations.SerSerializesBufIntoSym := by
  refine ⟨decode_encode (i := .ser) rfl, fun s => ⟨exec_ser_of_blen_gt, exec_ser_of_padf_zero, ?_⟩⟩
  intro total htotal hblen hpadf
  have hpos : 0 < s.padf.toNat := Nat.pos_of_ne_zero hpadf
  rw [← padlen_eq_ceil _ _ hpos] at htotal
  subst htotal
  refine ⟨exec_ser_of_padlen_gt hblen hpadf, fun hcfg hfit => ?_⟩
  obtain ⟨-, -, -, -, -, -, hsymCap, -⟩ := hcfg
  have hlen : (serialize (readCells s.bufAt 0 s.blen.toNat) s.padf.toNat).length =
      padlen s.blen.toNat s.padf.toNat := by
    rw [length_serialize _ _ hpos, length_readCells]
  refine ⟨_, exec_ser_of_fits hblen hpadf hfit, rfl, ?_, fun k j hk hj => ?_, fun i hlo hhi => ?_, fun i hi => ?_⟩
  · rw [← hlen]
    exact toNat_slen_putSymbols s (by omega)
  · exact symAt_putSymbols_serialize_data s s.bufAt _ hk hj
  · exact symAt_putSymbols_serialize_pad s s.bufAt _ hpos hlo hhi
  · exact symAt_putSymbols_above s (hlen.trans_le hi)

/-! ### DES (41_symbolcodec.md R70) -/

section
variable {s : State}

theorem exec_des_of_slen_gt (h : s.cfg.symCells < s.slen.toNat) : exec .des s = .next { s with status := 6 } := by
  rw [exec, execDes, if_pos h, raise_badOperand]

variable (hslen : s.slen.toNat ≤ s.cfg.symCells)
include hslen

theorem exec_des_of_groups_gt (h : s.cfg.bufBytes < s.slen.toNat / 4) :
    exec .des s = .next { s with status := 7 } := by
  rw [exec, execDes, if_neg (Nat.not_lt.2 hslen), if_pos h, raise_bufferOverflow]

theorem exec_des_of_fits (h : s.slen.toNat / 4 ≤ s.cfg.bufBytes) : exec .des s =
    .next { s.putBytes (deserialize (readCells s.symAt 0 s.slen.toNat)) with status := 0 } := by
  rw [exec, execDes, if_neg (Nat.not_lt.2 hslen), if_neg (Nat.not_lt.2 h), doneOk_eq]

end

theorem length_deserialize_readCells (c : Nat → Symbol) (a n : Nat) :
    (deserialize (readCells c a n)).length = n / 4 := by
  rw [deserialize_readCells, length_readCells]

/-- Byte `g` in BUF after a deserialization is group `g` of the symbols (41_symbolcodec.md R68). -/
theorem bufAt_putBytes_deserialize (s : State) (c : Nat → Symbol) {n g : Nat} (hg : g < n / 4) :
    (s.putBytes (deserialize (readCells c 0 n))).bufAt g = packedByte c (4 * g) := by
  apply bufAt_putBytes
  rw [deserialize_readCells, getElem?_readCells _ _ _ _ hg, Nat.zero_add, Nat.zero_add]

/-- Settles O20: BUF holds the deserialized symbols, one byte for each of the `SLEN div 4` complete groups. -/
theorem desDeserializesSymIntoBuf : Obligations.DesDeserializesSymIntoBuf := by
  refine ⟨decode_encode (i := .des) rfl, fun s => ⟨exec_des_of_slen_gt, exec_des_of_groups_gt, fun hslen hfit => ?_⟩⟩
  have hlen := length_deserialize_readCells s.symAt 0 s.slen.toNat
  refine ⟨_, exec_des_of_fits hslen hfit, rfl, ?_, fun g hg => ?_, fun a ha => ?_⟩
  · rw [← hlen]
    exact toNat_blen_putBytes s (by have := s.slen.isLt; omega)
  · exact bufAt_putBytes_deserialize s s.symAt hg
  · exact bufAt_putBytes_above s (hlen.trans_le ha)

end Sys2Proof.Machine

/-! PROOFS. The frame codec: BLDL, BLDA, PARSE with APPD, and VALID (42_framecodec.md, 44_appendchannel.md R91). -/

namespace Sys2Proof.Machine

theorem raise_badFrame (s : State) : s.raise .badFrame = .next { s with status := 5 } := by
  rw [State.raise, errorStatus_badFrame]; rfl

/-! ### BLDL and BLDA (42_framecodec.md R74, R76) -/

section
variable {s : State} {frame : List Byte → List Byte}

theorem buildFrame_of_plen_gt (h : s.cfg.payBytes < s.plen.toNat) :
    s.buildFrame frame = .next { s with status := 6 } := by
  rw [State.buildFrame, if_pos h, raise_badOperand]

variable (hplen : s.plen.toNat ≤ s.cfg.payBytes)
include hplen

theorem buildFrame_of_frame_gt (h : s.cfg.bufBytes < s.plen.toNat + 12) :
    s.buildFrame frame = .next { s with status := 7 } := by
  rw [State.buildFrame, if_neg (Nat.not_lt.2 hplen), if_pos h, raise_bufferOverflow]

/-- A frame that fits BUF stands there whole, whatever its layout; BLEN and STATUS are all else that is written. -/
theorem buildFrame_of_fits (hcfg : s.cfg.Ok) (hfit : s.plen.toNat + 12 ≤ s.cfg.bufBytes)
    (hlen : (frame s.payload).length = s.plen.toNat + 12) :
    ∃ t, s.buildFrame frame = .next t ∧ t = { s with status := 0, buf := t.buf, blen := t.blen } ∧
      t.blen.toNat = s.plen.toNat + 12 ∧ (∀ {k b}, (frame s.payload)[k]? = some b → t.bufAt k = b) ∧
      ∀ a, s.plen.toNat + 12 ≤ a → t.bufAt a = s.bufAt a := by
  obtain ⟨-, -, -, -, -, hbufCap, -⟩ := hcfg
  have hbuild : s.buildFrame frame = .next { s.putBytes (frame s.payload) with status := 0 } := by
    rw [State.buildFrame, if_neg (Nat.not_lt.2 hplen), if_neg (Nat.not_lt.2 hfit), doneOk_eq]
  refine ⟨_, hbuild, rfl, ?_, bufAt_putBytes s, fun a ha => bufAt_putBytes_above s (hlen.trans_le ha)⟩
  rw [← hlen]
  exact toNat_blen_putBytes s (by omega)

end

/-- Settles O21: the LSB frame in BUF is the magic, the length and the payload, from addresses 0, 4 and 12. -/
theorem bldlBuildsLsbFrame : Obligations.BldlBuildsLsbFrame := by
  refine ⟨decode_encode (i := .bldl) rfl, fun s =>
    ⟨buildFrame_of_plen_gt, buildFrame_of_frame_gt, fun hcfg hplen hfit => ?_⟩⟩
  obtain ⟨t, hbuild, hframe, hblen, hbytes, habove⟩ :=
    buildFrame_of_fits (frame := buildLsbFrame) hplen hcfg hfit (by simp)
  have hmagic {k : Nat} (hk : k < 4) {b : Byte} (hb : [0xDE#8, 0xAD#8, 0xC0#8, 0xDE#8][k]? = some b) :
      t.bufAt k = b :=
    hbytes ((buildLsbFrame_magic _ hk).trans hb)
  refine ⟨t, hbuild, hframe, hblen, ⟨hmagic (by decide) rfl, hmagic (by decide) rfl, hmagic (by decide) rfl,
    hmagic (by decide) rfl⟩, ?_, fun k hk => hbytes (buildLsbFrame_payload s hk), habove⟩
  refine holdsLength_of_getElem? s.plen.isLt fun k hk v hv => hbytes ((buildLsbFrame_length _ hk).trans ?_)
  rwa [length_payload]

/-- Settles O22: the append frame in BUF is the payload, the length and the magic, from addresses 0, PLEN and
`PLEN + 8`. -/
theorem bldaBuildsAppendFrame : Obligations.BldaBuildsAppendFrame := by
  refine ⟨decode_encode (i := .blda) rfl, fun s =>
    ⟨buildFrame_of_plen_gt, buildFrame_of_frame_gt, fun hcfg hplen hfit => ?_⟩⟩
  obtain ⟨t, hbuild, hframe, hblen, hbytes, habove⟩ :=
    buildFrame_of_fits (frame := buildAppendFrame) hplen hcfg hfit (by simp)
  have hmagic (k : Nat) {b : Byte} (hb : [0xDE#8, 0xC0#8, 0xFE#8, 0x5A#8][k]? = some b) :
      t.bufAt (s.plen.toNat + 8 + k) = b := by
    rw [← length_payload]
    exact hbytes ((buildAppendFrame_magic _ k).trans hb)
  refine ⟨t, hbuild, hframe, hblen, fun k hk => hbytes (buildAppendFrame_payload s hk), ?_,
    ⟨hmagic 0 rfl, hmagic 1 rfl, hmagic 2 rfl, hmagic 3 rfl⟩, habove⟩
  refine holdsLength_of_getElem? s.plen.isLt fun k hk v hv => ?_
  rw [← length_payload] at hv ⊢
  exact hbytes ((buildAppendFrame_length _ hk).trans hv)

/-! ### PARSE and APPD (42_framecodec.md R78; 44_appendchannel.md R91) -/

theorem exec_eq_trailerToPayload {i : Instr} (hi : i ∈ [Instr.parse, Instr.appd]) (s : State) :
    exec i s = s.trailerToPayload := by
  obtain rfl | rfl := List.mem_pair.1 hi <;> rfl

section
variable {s : State}

theorem trailerToPayload_of_flen_gt (h : s.cfg.fileBytes < s.flen.toNat) :
    s.trailerToPayload = .next { s with status := 6 } := by
  rw [State.trailerToPayload, if_pos h, raise_badOperand]

variable (hflen : s.flen.toNat ≤ s.cfg.fileBytes)
include hflen

/-- Past the operand check only what the trailer parser finds decides. -/
theorem trailerToPayload_of_found {found : Except ErrorCode (Option (List Byte))}
    (h : parseAppendTrailer s.fileAt s.flen.toNat = found) : s.trailerToPayload = s.finishDecode found .append := by
  rw [State.trailerToPayload, if_neg (Nat.not_lt.2 hflen), h]

theorem trailerToPayload_of_no_magic (hm : ¬ s.EndsInAppendMagic) :
    s.trailerToPayload = .next { s with status := 0 } :=
  (trailerToPayload_of_found hflen (parseAppendTrailer_none s hm)).trans (doneOk_eq s)

variable (hm : s.EndsInAppendMagic)
include hm

theorem trailerToPayload_of_short (h : s.flen.toNat < 12) : s.trailerToPayload = .next { s with status := 5 } :=
  (trailerToPayload_of_found hflen (parseAppendTrailer_short s hm h)).trans (raise_badFrame s)

variable {n : Nat} (h12 : 12 ≤ s.flen.toNat) (hn : HoldsLength s.fileAt (s.flen.toNat - 12) n)
include h12 hn

theorem trailerToPayload_of_length_gt (h : s.flen.toNat - 12 < n) :
    s.trailerToPayload = .next { s with status := 5 } := by
  rw [trailerToPayload_of_found hflen (parseAppendTrailer_length s n hm h12 hn), if_pos h]
  exact raise_badFrame s

/-- A length that fits the file delivers the bytes before the length field. -/
theorem trailerToPayload_of_length_le (h : n ≤ s.flen.toNat - 12) :
    s.trailerToPayload = s.deliver (readCells s.fileAt (s.flen.toNat - 12 - n) n) .append := by
  rw [trailerToPayload_of_found hflen (parseAppendTrailer_length s n hm h12 hn), if_neg (Nat.not_lt.2 h)]
  rfl

end

theorem deliver_of_length_gt {s : State} {q : List Byte} (path : DecodePath) (h : s.cfg.payBytes < q.length) :
    s.deliver q path = .next { s with status := 7 } := by
  rw [State.deliver, if_pos h, raise_bufferOverflow]

/-- Settles O23: both commands are `trailerToPayload`, whose end the magic, FLEN, the length field and PAY's capacity
decide, in that order. -/
theorem parseAndAppdReadTrailer : Obligations.ParseAndAppdReadTrailer := by
  refine ⟨decode_encode (i := .parse) rfl, decode_encode (i := .appd) rfl, fun _ => rfl, fun i hi s => ?_⟩
  rw [exec_eq_trailerToPayload hi]
  refine ⟨trailerToPayload_of_flen_gt, fun hflen => ⟨trailerToPayload_of_no_magic hflen,
    trailerToPayload_of_short hflen, fun n hm h12 hn =>
    ⟨trailerToPayload_of_length_gt hflen hm h12 hn, fun hle hpay => ?_, fun hle hpay => ?_⟩⟩⟩
  · rw [trailerToPayload_of_length_le hflen hm h12 hn hle]
    exact deliver_of_length_gt _ (by rwa [length_readCells])
  · rw [trailerToPayload_of_length_le hflen hm h12 hn hle]
    exact deliver_fits s s.fileAt _ n .append hn.1 hpay

/-! ### VALID (42_framecodec.md R79, R80) -/

theorem validateLsbHeader_iff (cell : Nat → Byte) : validateLsbHeader (readCells cell 0 12) = true ↔
    cell 0 = 0xDE#8 ∧ cell 1 = 0xAD#8 ∧ cell 2 = 0xC0#8 ∧ cell 3 = 0xDE#8 := by
  rw [validateLsbHeader, decide_eq_true_iff, readCells_take, ← fromBe_eq_magicLsb, ← readCells_four cell 0]
  rfl

theorem doneStatus_none (flag : Bool) : doneStatus flag .none = if flag then 0x10 else 0 := by
  cases flag <;> decide

section
variable {s : State}

theorem exec_valid_of_blen_gt (h : s.cfg.bufBytes < s.blen.toNat) :
    exec .valid s = .next { s with status := 6 } := by
  rw [exec, execValid, if_pos h, raise_badOperand]

variable (hblen : s.blen.toNat ≤ s.cfg.bufBytes)
include hblen

theorem exec_valid_of_blen_short (h : s.blen.toNat < 12) : exec .valid s = .next { s with status := 6 } := by
  rw [exec, execValid, if_neg (Nat.not_lt.2 hblen), if_pos h, raise_badOperand]

theorem exec_valid_of_operands_ok (h : 12 ≤ s.blen.toNat) : exec .valid s =
    .next { s with status := if validateLsbHeader (readCells s.bufAt 0 12) then 0x10 else 0 } := by
  rw [exec, execValid, if_neg (Nat.not_lt.2 hblen), if_neg (Nat.not_lt.2 h), State.done, doneStatus_none]

end

/-- Settles O24: FLAG is the header check, which holds exactly for `DE AD C0 DE`. -/
theorem validComparesLsbMagic : Obligations.ValidComparesLsbMagic := by
  refine ⟨decode_encode (i := .valid) rfl, fun s =>
    ⟨exec_valid_of_blen_gt, exec_valid_of_blen_short, fun hblen h12 => ?_⟩⟩
  rw [exec_valid_of_operands_ok hblen h12]
  simp only [validateLsbHeader_iff]

end Sys2Proof.Machine

/-! PROOFS. The LSB channel: LSBW, LSBR and LSBX, and the two forms of the capacity rule (43_lsbchannel.md,
45_toplevel.md R94). -/

namespace Sys2Proof.Machine

theorem raise_capacityExceeded (s : State) : s.raise .capacityExceeded = .next { s with status := 1 } := by
  rw [State.raise, errorStatus_capacityExceeded]; rfl

/-- The grid fits PIX: the negated test of 43_lsbchannel.md R81. -/
theorem not_gridTooLarge {s : State} (h : s.width.toNat * s.height.toNat * s.cfg.ch ≤ s.cfg.pixBytes) :
    ¬ s.gridTooLarge = true :=
  fun hgrid => Nat.not_lt.2 h ((gridTooLarge_iff s).1 hgrid)

/-! ### LSBW (43_lsbchannel.md R83, R84) -/

section
variable {s : State}

theorem exec_lsbw_of_slen_gt (h : s.cfg.symCells < s.slen.toNat) : exec .lsbw s = .next { s with status := 6 } := by
  rw [exec, execLsbw, if_pos h, raise_badOperand]

variable (hslen : s.slen.toNat ≤ s.cfg.symCells)
include hslen

theorem exec_lsbw_of_grid_gt (h : s.cfg.pixBytes < s.width.toNat * s.height.toNat * s.cfg.ch) :
    exec .lsbw s = .next { s with status := 6 } := by
  rw [exec, execLsbw, if_neg (Nat.not_lt.2 hslen), if_pos ((gridTooLarge_iff s).2 h), raise_badOperand]

variable (hgrid : s.width.toNat * s.height.toNat * s.cfg.ch ≤ s.cfg.pixBytes)
include hgrid

/-- LSBW past its operand checks: only the carrier's symbol count decides. -/
theorem exec_lsbw_of_operands_ok : exec .lsbw s =
    if s.nsym < s.slen.toNat then s.raise .capacityExceeded
    else (s.writeSymbolsFrom 0 (readCells s.symAt 0 s.slen.toNat)).doneOk := by
  rw [exec, execLsbw, if_neg (Nat.not_lt.2 hslen), if_neg (not_gridTooLarge hgrid)]

theorem exec_lsbw_of_nsym_lt (h : s.nsym < s.slen.toNat) : exec .lsbw s = .next { s with status := 1 } := by
  rw [exec_lsbw_of_operands_ok hslen hgrid, if_pos h, raise_capacityExceeded]

theorem exec_lsbw_of_fits (h : s.slen.toNat ≤ s.nsym) : exec .lsbw s =
    .next { s.writeSymbolsFrom 0 (readCells s.symAt 0 s.slen.toNat) with status := 0 } := by
  rw [exec_lsbw_of_operands_ok hslen hgrid, if_neg (Nat.not_lt.2 h), doneOk_eq]

end

section
variable (s : State) (c : Nat → Symbol) {n : Nat}

/-- The channel at symbol position `i` after the first `n` symbols of a stream are written from the origin. -/
theorem pixAt_writeSymbolsFrom_readCells (hch : 3 ≤ s.cfg.ch) {i : Nat} (hi : i < n) :
    (s.writeSymbolsFrom 0 (readCells c 0 n)).pixAt (s.symbolAddr i) =
      insertSymbol (s.pixAt (s.symbolAddr i)) (c i) := by
  have hcell := s.pixAt_writeSymbolsFrom_symbol hch 0 (readCells c 0 n) i (by simpa using hi)
  rwa [getElem_readCells, Nat.zero_add] at hcell

theorem pixAt_writeSymbolsFrom_readCells_other {a : Nat} (ha : ∀ i, i < n → s.symbolAddr i ≠ a) :
    (s.writeSymbolsFrom 0 (readCells c 0 n)).pixAt a = s.pixAt a := by
  refine s.pixAt_writeSymbolsFrom_other 0 _ fun k hk => ?_
  rw [length_readCells] at hk
  rw [Nat.zero_add]
  exact ha k hk

end

/-- Settles O25: the loop of `write` inserts SYM's symbols, and with `CH` at least 3 no position is written twice. -/
theorem lsbwWritesLowBits : Obligations.LsbwWritesLowBits := by
  refine ⟨decode_encode (i := .lsbw) rfl, fun s => ⟨exec_lsbw_of_slen_gt, exec_lsbw_of_grid_gt, fun hslen hgrid =>
    ⟨exec_lsbw_of_nsym_lt hslen hgrid, fun hcfg hfit => ?_⟩⟩⟩
  refine ⟨_, exec_lsbw_of_fits hslen hgrid hfit, ?_, fun i hi => ?_, fun a ha => ?_⟩
  · rw [State.writeSymbolsFrom_eq]
  · exact pixAt_writeSymbolsFrom_readCells s s.symAt hcfg.1 hi
  · exact pixAt_writeSymbolsFrom_readCells_other s s.symAt ha

/-! ### LSBR (43_lsbchannel.md R85, R86) -/

section
variable {s : State}

theorem exec_lsbr_of_grid_gt (h : s.cfg.pixBytes < s.width.toNat * s.height.toNat * s.cfg.ch) :
    exec .lsbr s = .next { s with status := 6 } := by
  rw [exec, execLsbr, if_pos ((gridTooLarge_iff s).2 h), raise_badOperand]

variable (hgrid : s.width.toNat * s.height.toNat * s.cfg.ch ≤ s.cfg.pixBytes)
include hgrid

theorem exec_lsbr_of_count_gt (h : s.nsym < s.count.toNat) : exec .lsbr s = .next { s with status := 6 } := by
  rw [exec, execLsbr, if_neg (not_gridTooLarge hgrid), if_pos h, raise_badOperand]

variable (hcount : s.count.toNat ≤ s.nsym)
include hcount

/-- LSBR past its operand checks: only SYM's capacity decides. -/
theorem exec_lsbr_of_operands_ok : exec .lsbr s =
    if s.cfg.symCells < s.count.toNat then s.raise .bufferOverflow
    else (s.putSymbols (s.readFirst s.count.toNat)).doneOk := by
  rw [exec, execLsbr, if_neg (not_gridTooLarge hgrid), if_neg (Nat.not_lt.2 hcount)]

theorem exec_lsbr_of_symCells_lt (h : s.cfg.symCells < s.count.toNat) :
    exec .lsbr s = .next { s with status := 7 } := by
  rw [exec_lsbr_of_operands_ok hgrid hcount, if_pos h, raise_bufferOverflow]

theorem exec_lsbr_of_fits (h : s.count.toNat ≤ s.cfg.symCells) : exec .lsbr s =
    .next { s.putSymbols (s.readFirst s.count.toNat) with status := 0 } := by
  rw [exec_lsbr_of_operands_ok hgrid hcount, if_neg (Nat.not_lt.2 h), doneOk_eq]

end

@[simp] theorem length_readFirst (s : State) (n : Nat) : (s.readFirst n).length = n := length_readCells _ _ _

theorem getElem?_readFirst (s : State) {n i : Nat} (h : i < n) : (s.readFirst n)[i]? = some (s.hiddenSymbol i) := by
  rw [State.readFirst, getElem?_readCells _ _ _ _ h, Nat.zero_add]
  rfl

/-- Settles O26: SYM holds `readFirst(COUNT)`, whose symbol `i` is the low two bits at raster position `i`. -/
theorem lsbrReadsFirstSymbols : Obligations.LsbrReadsFirstSymbols := by
  refine ⟨decode_encode (i := .lsbr) rfl, fun s => ⟨exec_lsbr_of_grid_gt, fun hgrid =>
    ⟨exec_lsbr_of_count_gt hgrid, exec_lsbr_of_symCells_lt hgrid, fun hcount hfit => ?_⟩⟩⟩
  refine ⟨_, exec_lsbr_of_fits hgrid hcount hfit, rfl, ?_, fun i hi => ?_, fun i hi => ?_⟩
  · simp
  · exact symAt_putSymbols s (getElem?_readFirst s hi)
  · exact symAt_putSymbols_above s (by simpa using hi)

/-! ### LSBX (43_lsbchannel.md R87, R88) -/

section
variable {s : State}

theorem exec_lsbx_of_grid_gt (h : s.cfg.pixBytes < s.width.toNat * s.height.toNat * s.cfg.ch) :
    exec .lsbx s = .next { s with status := 6 } := by
  rw [exec, execLsbx, if_pos ((gridTooLarge_iff s).2 h), raise_badOperand]

variable (hgrid : s.width.toNat * s.height.toNat * s.cfg.ch ≤ s.cfg.pixBytes)
include hgrid

/-- Past the operand check only what the two-phase extraction finds decides. -/
theorem exec_lsbx_of_found {found : Except ErrorCode (Option (List Byte))} (h : s.extractLsb = found) :
    exec .lsbx s = s.finishDecode found .lsb := by
  rw [exec, execLsbx, if_neg (not_gridTooLarge hgrid), h]

theorem exec_lsbx_of_no_magic (hm : ¬ s.StartsWithLsbMagic) : exec .lsbx s = .next { s with status := 0 } :=
  (exec_lsbx_of_found hgrid (extractLsb_none s hm)).trans (doneOk_eq s)

variable (hm : s.StartsWithLsbMagic) {n : Nat} (hn : HoldsLength s.hiddenByte 4 n)
include hm hn

theorem exec_lsbx_of_length_gt (h : 3 * (s.width.toNat * s.height.toNat) < 48 + 4 * n) :
    exec .lsbx s = .next { s with status := 5 } := by
  rw [exec_lsbx_of_found hgrid (extractLsb_length s n hm hn), if_pos h]
  exact raise_badFrame s

/-- The hidden bytes after the header are the payload; a payload longer than PAY is not delivered. -/
theorem exec_lsbx_of_payload_gt (h : 48 + 4 * n ≤ 3 * (s.width.toNat * s.height.toNat)) (hpay : s.cfg.payBytes < n) :
    exec .lsbx s = .next { s with status := 7 } := by
  rw [exec_lsbx_of_found hgrid (extractLsb_length s n hm hn), if_neg (Nat.not_lt.2 h)]
  exact deliver_of_length_gt .lsb (by rwa [length_readCells])

end

/-- Settles O27: the grid, the magic, the length field and PAY's capacity decide, in that order. -/
theorem lsbxExtractsPayload : Obligations.LsbxExtractsPayload := by
  refine ⟨decode_encode (i := .lsbx) rfl, fun s => ⟨exec_lsbx_of_grid_gt, fun hgrid =>
    ⟨exec_lsbx_of_no_magic hgrid, fun n hm hn => ⟨exec_lsbx_of_length_gt hgrid hm hn,
    exec_lsbx_of_payload_gt hgrid hm hn, fun hle hpay => ?_⟩⟩⟩⟩
  exact execLsbx_of_holdsLength hgrid hm hn hle hpay

/-! ### The capacity rule (43_lsbchannel.md R82; 45_toplevel.md R94) -/

/-- Settles O31: `padlen` with factor 3 is `3 * ceil(4L / 3)`, which is at most `3 * NPIX` exactly when `4L` is. -/
theorem capacityFormsAgree : Obligations.CapacityFormsAgree := by
  intro npix frameBytes
  have hceil : 3 * ((4 * frameBytes + 2) / 3) ≤ 3 * npix ↔ frameBytes ≤ npix * 6 / 8 := by omega
  have hpadlen : padlen frameBytes 3 = 3 * ((4 * frameBytes + 2) / 3) := padlen_eq_ceil frameBytes 3 (by decide)
  exact ⟨hceil, hpadlen ▸ hceil, by omega⟩

end Sys2Proof.Machine

/-! PROOFS. The append channel: APPE (44_appendchannel.md R90). -/

namespace Sys2Proof.Machine

/-! ### The checks before an append -/

section
variable {s : State}

theorem appendPayload_of_plen_gt (h : s.cfg.payBytes < s.plen.toNat) :
    s.appendPayload = .next { s with status := 6 } := by
  rw [State.appendPayload, if_pos h, raise_badOperand]

variable (hplen : s.plen.toNat ≤ s.cfg.payBytes)
include hplen

theorem appendPayload_of_flen_gt (h : s.cfg.fileBytes < s.flen.toNat) :
    s.appendPayload = .next { s with status := 6 } := by
  rw [State.appendPayload, if_neg (Nat.not_lt.2 hplen), if_pos h, raise_badOperand]

theorem appendPayload_of_end_gt (hflen : s.flen.toNat ≤ s.cfg.fileBytes)
    (h : s.cfg.fileBytes < s.flen.toNat + s.plen.toNat + 12) : s.appendPayload = .next { s with status := 7 } := by
  rw [State.appendPayload, if_neg (Nat.not_lt.2 hplen), if_neg (Nat.not_lt.2 hflen), if_pos h, raise_bufferOverflow]

theorem appendPayload_of_fits (h : s.flen.toNat + s.plen.toNat + 12 ≤ s.cfg.fileBytes) :
    s.appendPayload = .next { s.appendFile (buildAppendFrame s.payload) with status := 0 } := by
  have hflen : s.flen.toNat ≤ s.cfg.fileBytes := by omega
  rw [State.appendPayload, if_neg (Nat.not_lt.2 hplen), if_neg (Nat.not_lt.2 hflen), if_neg (Nat.not_lt.2 h), doneOk_eq]

end

/-! ### FILE and FLEN after an append -/

theorem holdsLength_appendFile (s : State) :
    HoldsLength (s.appendFile (buildAppendFrame s.payload)).fileAt (s.flen.toNat + s.plen.toNat) s.plen.toNat := by
  refine holdsLength_of_getElem? s.plen.isLt fun k hk v hv => ?_
  rw [← length_payload] at hv ⊢
  rw [Nat.add_assoc]
  exact fileAt_appendFile s ((buildAppendFrame_length _ hk).trans hv)

section
variable {s : State} (hcfg : s.cfg.Ok) (hfit : s.flen.toNat + s.plen.toNat + 12 ≤ s.cfg.fileBytes)
include hcfg hfit

theorem toNat_flen_appendFile_frame :
    (s.appendFile (buildAppendFrame s.payload)).flen.toNat = s.flen.toNat + s.plen.toNat + 12 := by
  have hlen : (buildAppendFrame s.payload).length = s.plen.toNat + 12 := by simp
  rw [toNat_flen_appendFile hcfg (by omega), hlen, Nat.add_assoc]

/-- The frame ends with the magic, and FLEN with the frame. -/
theorem endsInAppendMagic_appendFile : (s.appendFile (buildAppendFrame s.payload)).EndsInAppendMagic := by
  have hmagic (k : Nat) {b : Byte} (hb : [0xDE#8, 0xC0#8, 0xFE#8, 0x5A#8][k]? = some b) :
      (s.appendFile (buildAppendFrame s.payload)).fileAt (s.flen.toNat + (s.plen.toNat + 8 + k)) = b := by
    rw [← length_payload]
    exact fileAt_appendFile s ((buildAppendFrame_magic _ k).trans hb)
  rw [State.EndsInAppendMagic, toNat_flen_appendFile_frame hcfg hfit]
  exact ⟨by omega, hmagic 0 rfl, hmagic 1 rfl, hmagic 2 rfl, hmagic 3 rfl⟩

end

/-! ### APPE (44_appendchannel.md R90) -/

/-- Settles O28: PLEN, FLEN and the end of the frame decide, in that order; the append frame stands from the old FLEN
on, its length field after the payload and its magic at the new end of FILE. -/
theorem appeAppendsFrame : Obligations.AppeAppendsFrame := by
  refine ⟨decode_encode (i := .appe) rfl, fun s => ⟨appendPayload_of_plen_gt, appendPayload_of_flen_gt,
    appendPayload_of_end_gt, fun hcfg hplen hfit => ?_⟩⟩
  obtain ⟨-, hmagic⟩ := endsInAppendMagic_appendFile hcfg hfit
  refine ⟨_, appendPayload_of_fits hplen hfit, rfl, toNat_flen_appendFile_frame hcfg hfit,
    fun k hk => fileAt_appendFile s (buildAppendFrame_payload s hk), holdsLength_appendFile s, hmagic, fun a ha => ?_⟩
  refine fileAt_appendFile_other s (ha.imp_right fun h => ?_)
  rwa [length_buildAppendFrame, length_payload, ← Nat.add_assoc]

end Sys2Proof.Machine

/-! PROOFS. The top level: ENC and DEC, and the two round trips (45_toplevel.md). -/

namespace Sys2Proof.Machine

theorem raise_noHiddenData (s : State) : s.raise .noHiddenData = .next { s with status := 2 } := by
  rw [State.raise, errorStatus_noHiddenData]; rfl

/-! ### ENC (45_toplevel.md R92, R93) -/

section
variable {s : State}

theorem embedPayload_of_plen_gt (h : s.cfg.payBytes < s.plen.toNat) :
    s.embedPayload = .next { s with status := 6 } := by
  rw [State.embedPayload, if_pos h, raise_badOperand]

variable (hplen : s.plen.toNat ≤ s.cfg.payBytes)
include hplen

theorem embedPayload_of_grid_gt (h : s.cfg.pixBytes < s.width.toNat * s.height.toNat * s.cfg.ch) :
    s.embedPayload = .next { s with status := 6 } := by
  rw [State.embedPayload, if_neg (Nat.not_lt.2 hplen), if_pos ((gridTooLarge_iff s).2 h), raise_badOperand]

variable (hgrid : s.width.toNat * s.height.toNat * s.cfg.ch ≤ s.cfg.pixBytes)
include hgrid

theorem embedPayload_of_frame_gt (h : s.frameCapacity < s.plen.toNat + 12) :
    s.embedPayload = .next { s with status := 1 } := by
  rw [State.embedPayload, if_neg (Nat.not_lt.2 hplen), if_neg (not_gridTooLarge hgrid), if_pos h,
    raise_capacityExceeded]

theorem embedPayload_of_fits (h : s.plen.toNat + 12 ≤ s.frameCapacity) : s.embedPayload =
    .next { s.writeSymbolsFrom 0 (serialize (buildLsbFrame s.payload) 3) with status := 0 } := by
  rw [State.embedPayload, if_neg (Nat.not_lt.2 hplen), if_neg (not_gridTooLarge hgrid), if_neg (Nat.not_lt.2 h),
    doneOk_eq]

end

/-- An embedded frame fills whole pixels (41_symbolcodec.md R67). -/
theorem length_serialize_lsbFrame (s : State) :
    (serialize (buildLsbFrame s.payload) 3).length = 3 * ((4 * (s.plen.toNat + 12) + 2) / 3) := by
  rw [length_serialize _ _ (by decide), length_buildLsbFrame, length_payload, padlen_eq_ceil _ _ (by decide)]
  rfl

/-- After the frame's last symbol the last pixel is padded with zero symbols. -/
theorem hiddenSymbol_embed_pad {s : State} (hch : 3 ≤ s.cfg.ch) {i : Nat} (hlo : 4 * (s.plen.toNat + 12) ≤ i)
    (hhi : i < 3 * ((4 * (s.plen.toNat + 12) + 2) / 3)) :
    (s.writeSymbolsFrom 0 (serialize (buildLsbFrame s.payload) 3)).hiddenSymbol i = 0 := by
  rw [← length_serialize_lsbFrame] at hhi
  have hzero := getElem?_serialize_pad (buildLsbFrame s.payload) 3 i (by decide) (by simpa using hlo)
    (by rwa [length_serialize _ _ (by decide)] at hhi)
  exact (s.carrierSymbol_writeSymbolsFrom hch _ i hhi).trans (List.getElem?_eq_some_iff.1 hzero).2

/-- Settles O29: MODE 0 checks PLEN, the grid and the carrier's capacity, in that order; the frame's bytes, then the
padding, are the low bits of the symbol positions, and no other bit of PIX is written. -/
theorem encEmbedsOrAppends : Obligations.EncEmbedsOrAppends := by
  have hwords : ∀ m, m < 4 → decode (BitVec.ofNat 32 (0x0C + 256 * m)) = .ok (.enc m) := by decide
  have hmodes : ∀ (m : Nat) (s : State), 2 ≤ m → exec (.enc m) s = .next { s with status := 3 } := by
    intro m s hm
    obtain ⟨k, rfl⟩ := Nat.exists_eq_add_of_le' hm
    exact exec_enc_invalidMode k s
  refine ⟨hwords, hmodes, fun _ => rfl, fun s => ⟨embedPayload_of_plen_gt, embedPayload_of_grid_gt,
    fun hplen hgrid => ⟨embedPayload_of_frame_gt hplen hgrid, fun hcfg hfit => ?_⟩⟩⟩
  obtain ⟨hmagic, hlength, hpayload⟩ := hiddenBytes_embed s hcfg.1
  refine ⟨_, embedPayload_of_fits hplen hgrid hfit, ?_, hmagic, hlength, hpayload,
    fun i hlo hhi => hiddenSymbol_embed_pad hcfg.1 hlo hhi, s.upperBits_writeSymbolsFrom 0 _, fun a ha => ?_⟩
  · rw [State.writeSymbolsFrom_eq]
  · refine s.pixAt_writeSymbolsFrom_other 0 _ fun k hk => ?_
    rw [Nat.zero_add]
    exact ha k (by rwa [length_serialize_lsbFrame] at hk)

/-! ### DEC (45_toplevel.md R95, R96) -/

/-- A matched trailer magic never ends as "no match" (42_framecodec.md R77). -/
theorem parseAppendTrailer_of_magic {s : State} (hm : s.EndsInAppendMagic) :
    parseAppendTrailer s.fileAt s.flen.toNat = .error .badFrame ∨
      ∃ q, parseAppendTrailer s.fileAt s.flen.toNat = .ok (some q) := by
  obtain ⟨hno, -⟩ | ⟨-, -, h⟩ | ⟨n, -, -, -, -, h⟩ | ⟨n, -, -, -, -, h⟩ := parseAppendTrailer_cases s
  · exact absurd hm hno
  · exact .inl h
  · exact .inl h
  · exact .inr ⟨_, h⟩

/-- A matched LSB magic never ends as "no match" (43_lsbchannel.md R87). -/
theorem extractLsb_of_magic {s : State} (hm : s.StartsWithLsbMagic) :
    s.extractLsb = .error .badFrame ∨ ∃ q, s.extractLsb = .ok (some q) := by
  obtain ⟨hno, -⟩ | ⟨n, -, -, -, h⟩ | ⟨n, -, -, -, h⟩ := extractLsb_cases s
  · exact absurd hm hno
  · exact .inl h
  · exact .inr ⟨_, h⟩

section
variable {s : State}

theorem exec_dec_of_operand_gt
    (h : s.cfg.fileBytes < s.flen.toNat ∨ s.cfg.pixBytes < s.width.toNat * s.height.toNat * s.cfg.ch) :
    exec .dec s = .next { s with status := 6 } := by
  rw [← raise_badOperand, exec, execDec]
  by_cases hflen : s.cfg.fileBytes < s.flen.toNat
  · rw [if_pos hflen]
  · rw [if_neg hflen, if_pos ((gridTooLarge_iff s).2 (h.resolve_left hflen))]

variable (hflen : s.flen.toNat ≤ s.cfg.fileBytes)
  (hgrid : s.width.toNat * s.height.toNat * s.cfg.ch ≤ s.cfg.pixBytes)
include hflen hgrid

theorem exec_dec_of_error {e : ErrorCode} (h : s.decodeAny = .error e) : exec .dec s = s.raise e := by
  rw [exec, execDec, if_neg (Nat.not_lt.2 hflen), if_neg (not_gridTooLarge hgrid), h]

theorem exec_dec_of_found {q : List Byte} {path : DecodePath} (h : s.decodeAny = .ok (q, path)) :
    exec .dec s = s.deliver q path := by
  rw [exec, execDec, if_neg (Nat.not_lt.2 hflen), if_neg (not_gridTooLarge hgrid), h]

/-- Where FILE ends in the append magic, DEC is PARSE: there is no fallback after a matched magic. -/
theorem exec_dec_of_append_magic (hm : s.EndsInAppendMagic) : exec .dec s = s.trailerToPayload := by
  obtain h | ⟨q, h⟩ := parseAppendTrailer_of_magic hm <;> rw [trailerToPayload_of_found hflen h]
  · exact exec_dec_of_error hflen hgrid (by rw [State.decodeAny, h])
  · exact exec_dec_of_found hflen hgrid (by rw [State.decodeAny, h])

/-- The trailer's payload, where it is well formed and fits PAY. -/
theorem exec_dec_of_trailer {n : Nat} (hm : s.EndsInAppendMagic) (h12 : 12 ≤ s.flen.toNat)
    (hn : HoldsLength s.fileAt (s.flen.toNat - 12) n) (hle : n ≤ s.flen.toNat - 12) (hpay : n ≤ s.cfg.payBytes) :
    ∃ u, exec .dec s = .next u ∧
      ReturnsPayload s u n (fun k => s.fileAt (s.flen.toNat - 12 - n + k)) (doneStatus true .append) := by
  rw [exec_dec_of_append_magic hflen hgrid hm, trailerToPayload_of_length_le hflen hm h12 hn hle]
  exact deliver_fits s s.fileAt _ n .append hn.1 hpay

variable (hno : ¬ s.EndsInAppendMagic)
include hno

/-- Where only the pixels hold a magic, DEC is LSBX. -/
theorem exec_dec_of_lsb_magic (hm : s.StartsWithLsbMagic) : exec .dec s = exec .lsbx s := by
  obtain h | ⟨q, h⟩ := extractLsb_of_magic hm <;> rw [exec_lsbx_of_found hgrid h]
  · exact exec_dec_of_error hflen hgrid (by rw [State.decodeAny, parseAppendTrailer_none s hno, h])
  · exact exec_dec_of_found hflen hgrid (by rw [State.decodeAny, parseAppendTrailer_none s hno, h])

/-- The pixels' payload, where it is well formed and fits PAY. -/
theorem exec_dec_of_lsbFrame {n : Nat} (hm : s.StartsWithLsbMagic) (hn : HoldsLength s.hiddenByte 4 n)
    (hle : 48 + 4 * n ≤ 3 * (s.width.toNat * s.height.toNat)) (hpay : n ≤ s.cfg.payBytes) :
    ∃ u, exec .dec s = .next u ∧
      ReturnsPayload s u n (fun k => s.hiddenByte (12 + k)) (doneStatus true .lsb) := by
  rw [exec_dec_of_lsb_magic hflen hgrid hno hm]
  exact execLsbx_of_holdsLength hgrid hm hn hle hpay

theorem exec_dec_of_no_magic (hm : ¬ s.StartsWithLsbMagic) : exec .dec s = .next { s with status := 2 } := by
  have hnone : s.decodeAny = .error .noHiddenData := by
    rw [State.decodeAny, parseAppendTrailer_none s hno, extractLsb_none s hm]
  rw [exec_dec_of_error hflen hgrid hnone, raise_noHiddenData]

end

/-- Settles O30: past its operand checks DEC is PARSE where FILE ends in the append magic, else LSBX where the pixels
hold the LSB magic, else `NoHiddenData`. -/
theorem decTriesTrailerThenPixels : Obligations.DecTriesTrailerThenPixels := by
  obtain ⟨-, -, -, hparse⟩ := parseAndAppdReadTrailer
  obtain ⟨-, hlsbx⟩ := lsbxExtractsPayload
  refine ⟨decode_encode (i := .dec) rfl, fun s => ⟨fun h => exec_dec_of_operand_gt (.inl h),
    fun _ h => exec_dec_of_operand_gt (.inr h), fun hflen hgrid => ?_⟩⟩
  obtain ⟨-, htrailer⟩ := hparse .parse (by simp) s
  obtain ⟨-, hshort, hlength⟩ := htrailer hflen
  obtain ⟨-, hpixels⟩ := hlsbx s
  obtain ⟨-, hlength'⟩ := hpixels hgrid
  refine ⟨fun hm => ?_, fun n hm => ?_, exec_dec_of_no_magic hflen hgrid, fun n hno hm => ?_⟩
  · rw [exec_dec_of_append_magic hflen hgrid hm]
    exact hshort hm
  · rw [exec_dec_of_append_magic hflen hgrid hm]
    exact hlength n hm
  · rw [exec_dec_of_lsb_magic hflen hgrid hno hm]
    exact hlength' n hm

/-! ### The trailer beats the pixels (45_toplevel.md R97) -/

section
variable (s : State) (pixels : List Host.Cell)

theorem finishDecode_withPix (found : Except ErrorCode (Option (List Byte))) (path : DecodePath) :
    ({ s with pix := pixels } : State).finishDecode found path =
      mapNext (fun t => { t with pix := pixels }) (s.finishDecode found path) := by
  match found with
  | .error e => rfl
  | .ok none => rfl
  | .ok (some q) =>
    rw [State.finishDecode, State.finishDecode, State.deliver, State.deliver, mapNext_ite]
    rfl

theorem trailerToPayload_withPix : ({ s with pix := pixels } : State).trailerToPayload =
    mapNext (fun t => { t with pix := pixels }) s.trailerToPayload := by
  rw [State.trailerToPayload, State.trailerToPayload, mapNext_ite, finishDecode_withPix]
  rfl

end

/-- A matched trailer ends as `BadFrame`, as `BufferOverflow` or with a payload and PATH 1. -/
theorem trailerToPayload_of_magic {s : State} (hflen : s.flen.toNat ≤ s.cfg.fileBytes) (hm : s.EndsInAppendMagic) :
    (∃ e, (e = .badFrame ∨ e = .bufferOverflow) ∧ s.trailerToPayload = s.raise e) ∨
      ∃ q, s.trailerToPayload = (s.putPayload q).done true .append := by
  obtain h | ⟨q, h⟩ := parseAppendTrailer_of_magic hm
  · exact .inl ⟨_, .inl rfl, trailerToPayload_of_found hflen h⟩
  · obtain ⟨-, h'⟩ | ⟨-, h'⟩ := deliver_cases s q .append
    · exact .inl ⟨_, .inr rfl, (trailerToPayload_of_found hflen h).trans h'⟩
    · exact .inr ⟨q, (trailerToPayload_of_found hflen h).trans h'⟩

theorem path_doneStatus (path : DecodePath) : (doneStatus true path).extractLsb' 5 2 = path.number := by
  cases path <;> decide

/-- The fields of STATUS after a payload is returned (60_exceptions.md R109). -/
theorem flags_of_status_eq {u : State} {path : DecodePath} (h : u.status = doneStatus true path) :
    u.err = 0 ∧ u.flag = true ∧ u.path = path.number := by
  rw [State.err, State.flag, State.path, h]
  exact ⟨err_doneStatus .., flag_doneStatus .., path_doneStatus path⟩

/-- Settles O32: past the operand checks DEC is PARSE, which reads no pixel; a failed check is the same whatever PIX
holds. -/
theorem trailerBeatsPixels : Obligations.TrailerBeatsPixels := by
  intro s t pixels hm h
  by_cases hbad : s.cfg.fileBytes < s.flen.toNat ∨ s.cfg.pixBytes < s.width.toNat * s.height.toNat * s.cfg.ch
  · have hraise := (raise_badOperand s).trans ((exec_dec_of_operand_gt hbad).symm.trans h)
    refine ⟨?_, fun herr => absurd herr (err_ne_zero_of_raise hraise), fun hflen hgrid => by omega⟩
    rw [exec_dec_of_operand_gt (s := { s with pix := pixels }) hbad]
    cases hraise
    rfl
  · obtain ⟨hflen, hgrid⟩ := not_or.1 hbad
    rw [Nat.not_lt] at hflen hgrid
    rw [exec_dec_of_append_magic hflen hgrid hm] at h
    refine ⟨?_, ?_⟩
    · rw [exec_dec_of_append_magic (s := { s with pix := pixels }) hflen hgrid hm, trailerToPayload_withPix, h]
      rfl
    · obtain ⟨e, he, h'⟩ | ⟨q, h'⟩ := trailerToPayload_of_magic hflen hm
      · have hraise := h'.symm.trans h
        refine ⟨fun herr => absurd herr (err_ne_zero_of_raise hraise), fun _ _ => ?_⟩
        cases hraise
        rw [err_withErrorStatus]
        obtain rfl | rfl := he <;> decide
      · have hstatus : t.status = doneStatus true .append := by
          cases h'.symm.trans h
          rfl
        obtain ⟨herr, hfound⟩ := flags_of_status_eq hstatus
        exact ⟨fun _ => hfound, fun _ _ => by rw [herr]; decide⟩

/-! ### The two round trips (45_toplevel.md R98) -/

/-- A payload returned from cells that hold the payload of `s`, as a round trip says it. -/
theorem ReturnsPayload.roundTrip {s v u : State} {cell : Nat → Byte} {path : DecodePath}
    (h : ReturnsPayload v u s.plen.toNat cell (doneStatus true path))
    (hcell : ∀ k, k < s.plen.toNat → cell k = s.payAt k) :
    u.err = 0 ∧ u.flag = true ∧ u.path = path.number ∧ u.plen = s.plen ∧
      ∀ k, k < s.plen.toNat → u.payAt k = s.payAt k := by
  obtain ⟨hframe, hplen, hpay, -⟩ := h
  obtain ⟨herr, hflag, hpath⟩ := flags_of_status_eq (u := u) (by rw [hframe])
  exact ⟨herr, hflag, hpath, BitVec.eq_of_toNat_eq hplen, fun k hk => (hpay k hk).trans (hcell k hk)⟩

section
variable {s t : State} (herr : t.err = 0)
include herr

theorem appendPayload_succeeded (h : s.appendPayload = .next t) :
    s.plen.toNat ≤ s.cfg.payBytes ∧ s.flen.toNat + s.plen.toNat + 12 ≤ s.cfg.fileBytes ∧
      t = { s.appendFile (buildAppendFrame s.payload) with status := 0 } := by
  obtain ⟨e, -, h'⟩ | ⟨hpay, hfile, h'⟩ := appendPayload_cases s
  · exact absurd herr (err_ne_zero_of_raise (h'.symm.trans h))
  · exact ⟨hpay, hfile, eq_of_doneOk (h'.symm.trans h)⟩

theorem embedPayload_succeeded (h : s.embedPayload = .next t) :
    s.plen.toNat ≤ s.cfg.payBytes ∧ s.npix * s.cfg.ch ≤ s.cfg.pixBytes ∧ s.plen.toNat + 12 ≤ s.frameCapacity ∧
      t = { s.writeSymbolsFrom 0 (serialize (buildLsbFrame s.payload) 3) with status := 0 } := by
  obtain ⟨e, -, h'⟩ | ⟨hpay, hgrid, hfit, h'⟩ := embedPayload_cases s
  · exact absurd herr (err_ne_zero_of_raise (h'.symm.trans h))
  · exact ⟨hpay, hgrid, hfit, eq_of_doneOk (h'.symm.trans h)⟩

end

/-- Settles O33: ENC leaves a trailer whose length is PLEN, with the payload before it, and DEC is PARSE. -/
theorem appendRoundTrip : Obligations.AppendRoundTrip := by
  intro s t pay plen hcfg h herr hgrid
  obtain ⟨hpay, hfit, rfl⟩ := appendPayload_succeeded herr h
  have hflen := toNat_flen_appendFile_frame hcfg hfit
  have hlengthAddr : (s.appendFile (buildAppendFrame s.payload)).flen.toNat - 12 = s.flen.toNat + s.plen.toNat := by
    omega
  have hlength := holdsLength_appendFile s
  rw [← hlengthAddr] at hlength
  obtain ⟨u, hu, hret⟩ := exec_dec_of_trailer
    (s := { s.appendFile (buildAppendFrame s.payload) with status := 0, pay := pay, plen := plen })
    (hflen.trans_le hfit) hgrid (endsInAppendMagic_appendFile hcfg hfit) ((Nat.le_add_left 12 _).trans_eq hflen.symm)
    hlength ((Nat.le_add_left _ _).trans_eq hlengthAddr.symm) hpay
  refine ⟨u, hu, hret.roundTrip fun k hk => ?_⟩
  have hpayloadAddr : (s.appendFile (buildAppendFrame s.payload)).flen.toNat - 12 - s.plen.toNat = s.flen.toNat := by
    omega
  exact hpayloadAddr ▸ fileAt_appendFile s (buildAppendFrame_payload s hk)

theorem endsInAppendMagic_writeSymbolsFrom (s : State) (i : Nat) (ss : List Symbol) :
    (s.writeSymbolsFrom i ss).EndsInAppendMagic ↔ s.EndsInAppendMagic := by
  rw [State.EndsInAppendMagic, State.writeSymbolsFrom_flen, State.writeSymbolsFrom_fileAt]

/-- Settles O34: ENC leaves FILE as it is and embeds a frame whose length is PLEN, with the payload after it, and DEC
is LSBX. -/
theorem lsbRoundTrip : Obligations.LsbRoundTrip := by
  intro s t pay plen hcfg h herr hflen hno
  obtain ⟨hpay, hgrid, hfit, rfl⟩ := embedPayload_succeeded herr h
  obtain ⟨hmagic, hlength, hcells⟩ := hiddenBytes_embed s hcfg.1
  have hsym : 48 + 4 * s.plen.toNat ≤ 3 * (s.width.toNat * s.height.toNat) := by
    rw [State.frameCapacity, State.npix] at hfit
    omega
  obtain ⟨u, hu, hret⟩ := exec_dec_of_lsbFrame
    (s := { s.writeSymbolsFrom 0 (serialize (buildLsbFrame s.payload) 3) with status := 0, pay := pay, plen := plen })
    (by simpa using hflen) (by simpa [State.npix] using hgrid) (mt (endsInAppendMagic_writeSymbolsFrom ..).1 hno)
    ⟨by simpa using le_of_add_le_left hsym, hmagic⟩ hlength (by simpa using hsym) (by simpa using hpay)
  exact ⟨u, hu, hret.roundTrip hcells⟩

end Sys2Proof.Machine

/-! PROOFS. Errors and progress: the codes a command can end with and what an error leaves unchanged, that every command
ends, and that a legal session never stops the machine (60_exceptions.md). -/

namespace Sys2Proof.Machine

/-! ### How a command ends (60_exceptions.md R104, R108, R109) -/

/-- A command ends with ERR 0, or by one `raise` of a marked error and nothing else. -/
theorem Ended.err_cases {s t : State} {i : Instr} (h : Ended s i t) :
    t.err = 0 ∨ ∃ e : ErrorCode, e.number ∈ markedErrors i ∧ t = { s with status := errorStatus e } := by
  cases h with
  | err _ e marked => exact .inr ⟨e, marked, rfl⟩
  | pay | valid => exact .inl (err_doneStatus ..)
  | sym | buf | notFound | pix | file => exact .inl rfl

/-- The state a `raise` leaves, written from its own ERR: FLAG, PATH and bits 31:7 are 0. -/
theorem withErrorStatus_eq_err {s t : State} {e : ErrorCode} (h : t = { s with status := errorStatus e }) :
    t = { s with status := t.err.setWidth 32 } := by
  subst h
  rw [err_withErrorStatus, errorStatus_eq]

/-- A write to CMD runs the command its word decodes to, or raises `IllegalCommand` (10_state.md R15; 30_encoding.md
R59). -/
theorem runWord_cases {s t : State} {w : Word} (h : s.runWord w = .next t) :
    (∃ i, exec i s = .next t) ∨ t = { s with status := errorStatus .illegalCommand } := by
  unfold State.runWord at h
  split at h
  · next i _ => exact .inl ⟨i, h⟩
  · cases h; exact .inr rfl

theorem exec_failed {i : Instr} {s t : State} (h : exec i s = .next t) (herr : t.err ≠ 0) :
    t = { s with status := t.err.setWidth 32 } := by
  obtain hok | ⟨e, -, ht⟩ := (ended_of_exec i s t h).err_cases
  · exact absurd hok herr
  · exact withErrorStatus_eq_err ht

/-- Settles O36: an error is one `raise`, of the command or of the word that is none, and `raise` writes STATUS only. -/
theorem failingCommandChangesOnlyStatus : Obligations.FailingCommandChangesOnlyStatus := by
  refine ⟨fun i s t => exec_failed, fun w s t h herr => ?_⟩
  obtain ⟨i, hexec⟩ | ht := runWord_cases h
  · exact exec_failed hexec herr
  · exact withErrorStatus_eq_err ht

theorem Ended.epoch_eq {s t : State} {i : Instr} (h : Ended s i t) : t.epoch = s.epoch := by
  cases h with
  | pix => exact State.writeSymbolsFrom_epoch ..
  | err | sym | buf | pay | notFound | valid | file => rfl

theorem Ended.readback_eq {s t : State} {i : Instr} (h : Ended s i t) : t.readback = s.readback := by
  cases h with
  | pix => exact State.writeSymbolsFrom_readback ..
  | err | sym | buf | pay | notFound | valid | file => rfl

/-- Settles O41: every command answers a next state, and none of its ends writes the model's own fields. -/
theorem everyCommandEnds : Obligations.EveryCommandEnds := by
  intro i s
  obtain ⟨t, ht⟩ := exec_eq_next i s
  have hend := ended_of_exec i s t ht
  exact ⟨t, ht, hend.inputs_eq, hend.cfg_eq, hend.epoch_eq, hend.readback_eq⟩

/-! ### Each marked error is reached (60_exceptions.md R104) -/

/-- Capacities that a payload of 3 bytes, 22 pixels and a 14-byte frame exceed. -/
def scant : Config := ⟨3, 63, 2, 13, 60, 20⟩

/-- Just out of reset, with the capacities `scant`. -/
def State.atScant : State := State.atReset scant 0 [] none

/-- A carrier that begins with the LSB frame of the payload `q`. -/
def carrierOf (q : List Byte) : List Host.Cell :=
  Memory.cellsFrom 0 ((serialize (buildLsbFrame q) 3).map fun v => v.setWidth 8)

/-- For each error code, one state in which every command marked with it ends with it. -/
def State.raising : BitVec 4 → State
  -- no room for the 55 symbols of SYM, nor for the 14-byte frame of a 2-byte payload, in 18 pixels
  | 1 => { State.atScant with width := 18, height := 1, slen := 55, plen := 2 }
  -- every length and the grid one past its capacity
  | 6 => { State.atScant with width := 22, height := 1, plen := 3, blen := 14, slen := 61, flen := 21 }
  -- FILE one byte too short for its trailer, the carrier four symbols too short for its frame
  | 5 => { State.atScant with
      width := 16, height := 1, pix := carrierOf [0]
      file := Memory.cellsFrom 0 ((buildAppendFrame []).drop 1), flen := 11 }
  -- every operand fits; no result does
  | 7 => { State.atScant with
      width := 21, height := 1, plen := 2, blen := 1, padf := 61, slen := 60, count := 61, pix := carrierOf [0, 0, 0]
      file := Memory.cellsFrom 0 (buildAppendFrame [0, 0, 0]), flen := 15 }
  -- NoHiddenData and InvalidMode: neither FILE nor PIX is needed
  | _ => State.atScant

/-- The result is a next state with this ERR. -/
def endsWithErr (r : Result) (e : BitVec 4) : Bool :=
  match r with
  | .next t => t.err == e
  | .fault _ | .refused _ => false

theorem err_of_endsWithErr {t : State} {e : BitVec 4} (h : endsWithErr (.next t) e = true) : t.err = e :=
  eq_of_beq h

theorem raising_inv : ∀ e : BitVec 4, (State.raising e).Inv := by decide

theorem exec_raising : ∀ i ∈ legalCommands, ∀ e ∈ markedErrors i, endsWithErr (exec i (State.raising e)) e = true := by
  decide

/-- Settles O38: a command raises no error but its marked ones, and `State.raising` reaches each of them. -/
theorem errorMatrix : Obligations.ErrorMatrix := by
  refine fun i hwf => ⟨fun s t h => ?_, fun e he => ?_⟩
  · obtain hok | ⟨e, marked, rfl⟩ := (ended_of_exec i s t h).err_cases
    · exact .inl hok
    · exact .inr (by rwa [err_withErrorStatus])
  · obtain ⟨t, ht⟩ := exec_eq_next i (State.raising e)
    have hend := exec_raising i (mem_legalCommands.2 hwf) e he
    rw [ht] at hend
    exact ⟨State.raising e, t, raising_inv e, ht, err_of_endsWithErr hend⟩

/-! ### A legal session never stops (60_exceptions.md R110; 10_state.md R31) -/

theorem runWord_eq_next (s : State) (w : Word) : ∃ t, s.runWord w = .next t := by
  unfold State.runWord
  split
  · next i _ => exact exec_eq_next i s
  · exact ⟨_, rfl⟩

theorem hostWriteReg_eq_next {s : State} {reg : Nat} {v : BitVec 64} (hreg : reg ≤ 9)
    (hfit : reg ∈ narrowRegs → v.toNat < 2 ^ 32) : ∃ t, s.hostWriteReg reg v = .next t := by
  match reg with
  | 0 =>
    obtain ⟨t, ht⟩ := runWord_eq_next s (v.setWidth 32)
    exact ⟨t, (write32_of_lt (hfit (by decide)) _).trans ht⟩
  | 1 => exact ⟨s, rfl⟩
  | r + 2 => exact ⟨_, hostWriteReg_eq_withReg s (by omega) hreg fun h => hfit (List.mem_cons_of_mem 0 h)⟩

/-- A host action inside the architecture is performed, not refused. -/
theorem hostAct_eq_next {s : State} {act : HostAction} (h : act.Legal s.cfg) : ∃ t, s.hostAct act = .next t := by
  cases act with
  | writeReg reg v =>
    obtain ⟨hreg, hfit⟩ := h
    exact hostWriteReg_eq_next hreg hfit
  | readReg reg =>
    obtain ⟨v, hv⟩ := exists_regValue_of_le s h
    exact ⟨_, hostReadReg_of_regValue hv⟩
  | writeCell sp a v => exact ⟨_, if_pos h⟩
  | readCell sp a => exact ⟨_, if_pos h⟩
  | reset => exact ⟨_, rfl⟩

theorem runWord_inputs {s t : State} {w : Word} (h : s.runWord w = .next t) : t.inputs = s.inputs := by
  obtain ⟨i, hexec⟩ | rfl := runWord_cases h
  · exact (ended_of_exec i s t hexec).inputs_eq
  · rfl

/-- No host action, reset included, adds to the queue or takes from it. -/
theorem hostAct_inputs {s t : State} {act : HostAction} (h : s.hostAct act = .next t) : t.inputs = s.inputs := by
  cases act with
  | writeReg reg v =>
    obtain ⟨-, hrun⟩ | ht := hostWriteReg_cases h
    · exact runWord_inputs hrun
    · rw [ht]
  | readReg reg => obtain ⟨v, -, rfl⟩ := hostReadReg_eq_next h; rfl
  | writeCell sp a v => obtain ⟨-, rfl⟩ := hostWriteCell_eq_next h; cases sp <;> rfl
  | readCell sp a => obtain ⟨-, rfl⟩ := hostReadCell_eq_next h; rfl
  | reset => cases h; rfl

/-- A step takes at most the oldest action from the queue. -/
theorem step_inputs {s t : State} (h : step s = .next t) : t.inputs = s.inputs.tail := by
  obtain ⟨hin, rfl⟩ | ⟨act, rest, hin, hact⟩ := step_cases h
  · rw [hin]; rfl
  · rw [hin]; exact hostAct_inputs hact

theorem step_eq_next {s : State} (h : s.InputsLegal) : ∃ t, step s = .next t := by
  cases hin : s.inputs with
  | nil => exact ⟨s, by rw [step, hin]⟩
  | cons act rest =>
    rw [step_of_inputs hin]
    exact hostAct_eq_next (s := { s with inputs := rest }) (h act (by simp [hin]))

/-- The actions left are legal still: no step changes the capacities. -/
theorem step_keeps_inputsLegal {s t : State} (hs : s.Inv) (hlegal : s.InputsLegal) (h : step s = .next t) :
    t.InputsLegal := by
  intro act hact
  obtain ⟨-, hcfg⟩ := stepKeepsInvariant s t hs h
  rw [step_inputs h] at hact
  rw [hcfg]
  exact hlegal act (List.mem_of_mem_tail hact)

theorem run_succ_of_step {s t : State} (h : step s = .next t) (k : Nat) :
    Host.Core.run core (k + 1) s = Host.Core.run core k t := by
  have hcore : core.step s = .next t := h
  simp only [Host.Core.run, hcore]

/-- Settles O49, by induction on the number of steps: a legal step is performed, and keeps the invariant and the
legality of what is pending. -/
theorem legalSessionsNeverStop : Obligations.LegalSessionsNeverStop := by
  intro k
  induction k with
  | zero => exact fun s hs hlegal => ⟨s, rfl, hs, hlegal⟩
  | succ k ih =>
    intro s hs hlegal
    obtain ⟨t, ht⟩ := step_eq_next hlegal
    obtain ⟨ht', -⟩ := stepKeepsInvariant s t hs ht
    rw [run_succ_of_step ht]
    exact ih t ht' (step_keeps_inputsLegal hs hlegal ht)

end Sys2Proof.Machine

/-! PROOFS. Reset, the host's idle and refused accesses, and the grid as an operand (70_reset_and_hazards.md). -/

namespace Sys2Proof.Machine

/-! ### A reset event (70_reset_and_hazards.md R116) -/

theorem step_of_reset {s : State} {rest : List HostAction} (h : s.inputs = .reset :: rest) :
    step s = .next (State.atReset s.cfg (s.epoch + 1) rest s.readback) := step_of_inputs h

/-- Settles O9: the step answers `State.atReset` under the next key of the free contents. -/
theorem resetEventRestoresRegisters : Obligations.ResetEventRestoresRegisters := by
  intro s rest hin
  refine ⟨_, step_of_reset hin, ?registers, ?cells, Nat.succ_ne_self s.epoch, rfl, rfl, rfl⟩
  case registers => exact ⟨rfl, rfl, rfl, rfl, rfl, rfl, rfl, rfl, rfl⟩
  case cells => exact ⟨rfl, rfl, rfl, rfl, rfl⟩

/-! ### No action pending, and a value wider than its register (70_reset_and_hazards.md R118; 10_state.md R14) -/

theorem step_of_inputs_nil {s : State} (h : s.inputs = []) : step s = .next s := by
  rw [step, h]

theorem write32_of_ge {v : BitVec 64} (h : 2 ^ 32 ≤ v.toNat) (k : Word → Result) :
    write32 v k = .refused .hostValueTooWide := if_neg (Nat.not_lt.2 h)

/-- CMD, WIDTH, HEIGHT and PADF take a value through the width test only. -/
theorem hostWriteReg_of_ge (s : State) {reg : Nat} {v : BitVec 64} (hreg : reg ∈ [0, 2, 3, 8]) (hv : 2 ^ 32 ≤ v.toNat) :
    s.hostWriteReg reg v = .refused .hostValueTooWide := by
  simp only [List.mem_cons, List.not_mem_nil, or_false] at hreg
  obtain rfl | rfl | rfl | rfl := hreg <;> rw [State.hostWriteReg, write32_of_ge hv]

/-- Settles O16: an empty queue leaves the state as it is; the width test of a 32-bit register fails. -/
theorem idleAndOverwideWrites : Obligations.IdleAndOverwideWrites :=
  fun _ _ _ _ => ⟨step_of_inputs_nil, fun hreg hv hin => (step_of_inputs hin).trans (hostWriteReg_of_ge _ hreg hv)⟩

/-! ### Another grid of as many pixels (70_reset_and_hazards.md R130) -/

def State.withGrid (s : State) (w h : Word) : State := { s with width := w, height := h }

section
variable {s : State} {w h : Word} (hpixels : w.toNat * h.toNat = s.npix)
include hpixels

theorem nsym_withGrid : (s.withGrid w h).nsym = s.nsym := congrArg (3 * ·) hpixels

theorem frameCapacity_withGrid : (s.withGrid w h).frameCapacity = s.frameCapacity := congrArg (· * 6 / 8) hpixels

theorem gridTooLarge_withGrid : (s.withGrid w h).gridTooLarge = s.gridTooLarge :=
  congrArg (fun n => decide (n * s.cfg.ch > s.cfg.pixBytes)) hpixels

/-- Raster addressing takes CH, not WIDTH (20_memory.md R41), so the extraction meets the grid in `nsym` only. -/
theorem extractLsb_withGrid : (s.withGrid w h).extractLsb = s.extractLsb := by
  rw [State.extractLsb, State.extractLsb, nsym_withGrid hpixels]
  rfl

theorem decodeAny_withGrid : (s.withGrid w h).decodeAny = s.decodeAny := by
  rw [State.decodeAny, State.decodeAny, extractLsb_withGrid hpixels]
  rfl

end

/-! ### Writes that pass the grid through

With its sources held fixed, a command is a function of the state it writes into (as for `Repeatable`). No such function
looks at WIDTH or HEIGHT. -/

/-- `k` hands the grid of its argument on to its next state and answers otherwise the same. -/
def PassesGrid (w h : Word) (k : State → Result) : Prop :=
  ∀ s : State, k (s.withGrid w h) = mapNext (·.withGrid w h) (k s)

namespace PassesGrid

variable {w h : Word}

theorem raise (e : ErrorCode) : PassesGrid w h (·.raise e) := fun _ => rfl

theorem done (flag : Bool) (path : DecodePath) : PassesGrid w h (·.done flag path) := fun _ => rfl

/-- An error test that reads nothing of the state written into. -/
theorem guard {p : Prop} {_ : Decidable p} {e : ErrorCode} {k : State → Result} (hk : PassesGrid w h k) :
    PassesGrid w h fun u => if p then u.raise e else k u := by
  by_cases hp : p
  · simpa only [hp, if_true] using raise e
  · simpa only [hp, if_false] using hk

theorem putSymbols (ss : List Symbol) : PassesGrid w h fun u => (u.putSymbols ss).doneOk := fun _ => rfl

theorem putBytes (bs : List Byte) : PassesGrid w h fun u => (u.putBytes bs).doneOk := fun _ => rfl

theorem appendFile (bs : List Byte) : PassesGrid w h fun u => (u.appendFile bs).doneOk := fun _ => rfl

theorem writeSymbolsFrom (ss : List Symbol) : PassesGrid w h fun u => (u.writeSymbolsFrom 0 ss).doneOk :=
  fun s => congrArg State.doneOk (writeSymbolsFrom_comm (·.withGrid w h) (fun _ _ _ => rfl) s 0 ss)

theorem deliver (q : List Byte) (path : DecodePath) : PassesGrid w h (·.deliver q path) := by
  intro s
  simp only [State.deliver, mapNext_ite]
  rfl

theorem finishDecode (found : Except ErrorCode (Option (List Byte))) (path : DecodePath) :
    PassesGrid w h (·.finishDecode found path) := by
  match found with
  | .error e => exact raise e
  | .ok none => exact done false .none
  | .ok (some q) => exact deliver q path

theorem finishDecodeAny (found : Except ErrorCode (List Byte × DecodePath)) :
    PassesGrid w h fun u => match found with
      | .error e => u.raise e
      | .ok (q, path) => u.deliver q path := by
  match found with
  | .error e => exact raise e
  | .ok (q, path) => exact deliver q path

end PassesGrid

open PassesGrid in
/-- Each command is a chain of guards before one write that passes the grid through; the guards and the value written
meet the grid only in the quantities that the pixel count fixes. -/
theorem exec_withGrid {s : State} {w h : Word} (hpixels : w.toNat * h.toNat = s.npix) (i : Instr) :
    exec i (s.withGrid w h) = mapNext (·.withGrid w h) (exec i s) := by
  cases i with
  | ser => exact guard (guard (guard (putSymbols _))) s
  | des | bldl | blda => exact guard (guard (putBytes _)) s
  | parse | appd => exact guard (finishDecode _ _) s
  | valid => exact guard (guard (done _ _)) s
  | lsbw =>
    simp only [exec, execLsbw, gridTooLarge_withGrid hpixels, nsym_withGrid hpixels]
    exact guard (guard (guard (writeSymbolsFrom _))) s
  | lsbr =>
    simp only [exec, execLsbr, gridTooLarge_withGrid hpixels, nsym_withGrid hpixels]
    exact guard (guard (guard (putSymbols _))) s
  | lsbx =>
    simp only [exec, execLsbx, gridTooLarge_withGrid hpixels, extractLsb_withGrid hpixels]
    exact guard (finishDecode _ _) s
  | appe => exact guard (guard (guard (appendFile _))) s
  | enc m =>
    match m with
    | 0 =>
      simp only [exec, execEnc, State.embedPayload, gridTooLarge_withGrid hpixels, frameCapacity_withGrid hpixels]
      exact guard (guard (guard (writeSymbolsFrom _))) s
    | 1 => exact guard (guard (guard (appendFile _))) s
    | m + 2 => exact raise _ s
  | dec =>
    simp only [exec, execDec, gridTooLarge_withGrid hpixels, decodeAny_withGrid hpixels]
    exact guard (guard (finishDecodeAny _)) s

/-- Settles O43: every command commutes with an exchange of the grid for one of as many pixels. -/
theorem onlyThePixelCountMatters : Obligations.OnlyThePixelCountMatters := by
  intro i s t w h hpixels hexec
  have hcomm := exec_withGrid hpixels i
  rw [hexec] at hcomm
  exact hcomm

end Sys2Proof.Machine
